-- ==== Sys2Proof/Word.lean ====
section
/-! DEFINITION. The unit of every bus access: one 32-bit word (spec 00_scope.md R7, 20_memory.md R43). -/

namespace Sys2Proof

/-- A 32-bit bus, command or register word. Bit 0 is the least significant bit (R7). -/
abbrev Word := BitVec 32

end Sys2Proof
end

