-- ==== Sys2Proof/Syntax.lean ====
section
/-! DEFINITION. The instructions of the block (spec 30_encoding.md, opcode_table.json): one constructor a row. -/

namespace Sys2Proof

/-- The two commands (R58). The operands are the register indices of R57: destination, first source (the minuend
of `SUB`), second source (the subtrahend). An index `>= NREG` is legal to encode (R57). -/
inductive Instr where
  /-- `ADD rd, rs1, rs2` (40_addsub.md R75). -/
  | add (rd rs1 rs2 : Nat)
  /-- `SUB rd, rs1, rs2` (40_addsub.md R76). -/
  | sub (rd rs1 rs2 : Nat)
deriving DecidableEq, Repr

/-- `DBL rd, rs` is `ADD rd, rs, rs` (30_encoding.md R63). -/
def Instr.dbl (rd rs : Nat) : Instr := .add rd rs rs

/-- `ZERO rd, rs` is `SUB rd, rs, rs` (30_encoding.md R63). -/
def Instr.zero (rd rs : Nat) : Instr := .sub rd rs rs

/-- `NEG rd, rz, rs` is `SUB rd, rz, rs` (30_encoding.md R63). -/
def Instr.neg (rd rz rs : Nat) : Instr := .sub rd rz rs

end Sys2Proof
end

