-- ==== Sys2Proof/WellFormed.lean ====
section
/-! DEFINITION. Well-formed instructions: every register index fits its 3-bit field (spec 30_encoding.md R56). The
check against `NREG` is no part of it: it is made at completion (R57, R60). -/

namespace Sys2Proof

/-- A register index that the 3-bit fields of format `CR` can hold (R56): `r0` to `r7`. -/
def regFieldOk (n : Nat) : Bool := decide (n < 8)

/-- Every operand of the instruction fits its field. -/
def Instr.wellFormed : Instr → Bool
  | .add rd rs1 rs2 => regFieldOk rd && regFieldOk rs1 && regFieldOk rs2
  | .sub rd rs1 rs2 => regFieldOk rd && regFieldOk rs1 && regFieldOk rs2

/-- `Instr.wellFormed` as a proposition. -/
abbrev Instr.WellFormed (i : Instr) : Prop := i.wellFormed = true

end Sys2Proof
end

