-- ==== Sys2Proof/Decode.lean ====
section
/-! DEFINITION. The command word: its decoder, total on 32-bit words (spec 30_encoding.md R56-R60), the encoder
(R62), and the host's numbering of the same words. -/

namespace Sys2Proof

/-- `RSVD_MASK`, the reserved bits of format `CR` (R56). -/
def rsvdMask : Word := 0xFFF888F0#32

/-- `OP = w[3:0]` (R57). -/
def fieldOp (w : Word) : BitVec 4 := w.extractLsb' 0 4

/-- `RD = w[10:8]` (R57). -/
def fieldRd (w : Word) : BitVec 3 := w.extractLsb' 8 3

/-- `RS1 = w[14:12]` (R57). -/
def fieldRs1 (w : Word) : BitVec 3 := w.extractLsb' 12 3

/-- `RS2 = w[18:16]` (R57). -/
def fieldRs2 (w : Word) : BitVec 3 := w.extractLsb' 16 3

/-- Why a word is Illegal (R59). Both reasons give `ERR = ILLEGAL` at completion. -/
inductive DecodeError where
  /-- A bit of `rsvdMask` is set. -/
  | reservedBits
  /-- `OP` is neither `0x1` nor `0x2`. -/
  | reservedOp
deriving DecidableEq, Repr

/-- The decoder of R60. -/
def decode (w : Word) : Except DecodeError Instr :=
  if w &&& rsvdMask ≠ 0#32 then .error .reservedBits
  else if fieldOp w = 0x1#4 then .ok (.add (fieldRd w).toNat (fieldRs1 w).toNat (fieldRs2 w).toNat)
  else if fieldOp w = 0x2#4 then .ok (.sub (fieldRd w).toNat (fieldRs1 w).toNat (fieldRs2 w).toNat)
  else .error .reservedOp

/-- The three register fields in their places (R56, R62). -/
def encodeRegs (rd rs1 rs2 : Nat) : Word :=
  (BitVec.ofNat 32 rs2 <<< 16) ||| (BitVec.ofNat 32 rs1 <<< 12) ||| (BitVec.ofNat 32 rd <<< 8)

/-- `enc` of R62, meant for well-formed instructions. -/
def encode : Instr → Word
  | .add rd rs1 rs2 => encodeRegs rd rs1 rs2 ||| 0x1#32
  | .sub rd rs1 rs2 => encodeRegs rd rs1 rs2 ||| 0x2#32

/-- The command word that the low `nbits` bits of `w` are. A word of the block has 32 bits and no byte order is
ever observed (20_memory.md R43), so bit `k` of the number is bit `k` of the word. `none` if it needs more bits. -/
def tableWord (nbits w : Nat) : Option Word :=
  if w % 2 ^ nbits < 2 ^ 32 then some (BitVec.ofNat 32 (w % 2 ^ nbits)) else none

/-- What the decoder reads from a word numbered as the opcode table numbers it. -/
def decodeTableWord (nbits w : Nat) : Option Instr :=
  match tableWord nbits w with
  | none => none
  | some x =>
    match decode x with
    | .ok i => some i
    | .error _ => none

end Sys2Proof
end

