-- ==== Sys2Proof/Config.lean ====
section
/-! DEFINITION. The build-time parameters of one block (spec 00_scope.md R5, R6) and the one free value of the
model: the word a host reads from a register-file word that nothing has written (10_state.md R22). -/

namespace Sys2Proof

/-- The build-time parameters of R5. A model takes each as an argument: here they are constants carried by the
state, which no step changes (log entry 1). `BUS_PROTOCOL` (R107) is not among them: no rule depends on it. -/
structure Params where
  /-- `DB`, the limb width in bits. -/
  db : Nat
  /-- `NLIMB`, the limb capacity of each BigInt register. -/
  nlimb : Nat
  /-- `NREG`, the number of BigInt registers. -/
  nreg : Nat
  /-- `BASE`, the bus address of the register window (20_memory.md R40). -/
  base : Nat
deriving DecidableEq, Repr

/-- `DV = 2^DB`, the digit base (R6). -/
def Params.dv (p : Params) : Nat := 2 ^ p.db

/-- `DM = 2^DB - 1`, the digit mask (R6). -/
def Params.dm (p : Params) : Nat := 2 ^ p.db - 1

/-- The size of the register window in bytes: 16 KiB (R40). -/
def windowBytes : Nat := 0x4000

/-- The legal ranges of R5, and the alignment of `BASE` of R40. -/
abbrev Params.Legal (p : Params) : Prop :=
  1 ≤ p.db ∧ p.db ≤ 32 ∧ 1 ≤ p.nlimb ∧ p.nlimb ≤ 255 ∧ 1 ≤ p.nreg ∧ p.nreg ≤ 8 ∧ p.base % windowBytes = 0

/-- The reference configuration of R5. `BASE` is OPEN in the spec; 0 here is a DESIGN CHOICE (log entry 1, unsafe
only for a claim about this one value). -/
def Params.reference : Params := { db := 26, nlimb := 128, nreg := 8, base := 0 }

/-- The free values of host reads of unwritten words (10_state.md R22, 93 S2: a draw at each read). It has no
body: nothing can prove a value of it. `State.draws` says which draw comes next (log entry 6; safe). -/
opaque Config.draw : Nat → Word

end Sys2Proof
end

