-- ==== Sys2Proof/Machine/State.lean ====
section
/-! DEFINITION. The state of the block as plain data (spec 10_state.md R15, R36), the model's own fields beside it
(the schedule of turns, the host's read data, the draw counter), the reasons a step can stop, and the state after
reset (10_state.md R39, 70_reset_and_hazards.md R96, R97). -/

namespace Sys2Proof.Machine

/-- The model fault that a state can record (10_state.md R36, 60_exceptions.md R84). -/
inductive FaultReason where
  /-- A command would read an unwritten operand word (R22). Recorded by the completion step; safe: the spec says
  that it errs toward unprovable. -/
  | unwrittenOperand
deriving DecidableEq, Repr

/-- Reasons for which the machine stops with a fault. -/
inductive Fault where
  /-- A model fault is recorded and nothing is left that could take a step (60_exceptions.md R84: the engine has no
  further step and the state is never final). Raised by `idle`; safe. -/
  | recorded (r : FaultReason)
  /-- A host access at an address outside `BASE` to `BASE + 0x3FFF`: no address of the block (20_memory.md R40).
  Raised by `hostTurn`; safe (log entry 10). -/
  | outsideWindow
deriving DecidableEq, Repr

/-- Reasons for which the model has no step. -/
inductive Refusal where
  /-- The instruction has no meaning yet. Raised by no arm of `exec`; safe. -/
  | notModelled (mnemonic : String)
  /-- A host access that is not 32 bits wide (20_memory.md R44: refused). Raised by `hostTurn`; safe. -/
  | accessWidth
  /-- A host access at an offset that is no multiple of 4 (20_memory.md R44: refused). Raised by `hostTurn`; safe. -/
  | misaligned
deriving DecidableEq, Repr

/-- The error codes of 60_exceptions.md R81. Codes 5 to 7 are never produced. -/
inductive ErrCode where
  | ok
  | illegal
  | badReg
  | badLen
  | overflow
deriving DecidableEq, Repr

/-- One BigInt register (R15): the header fields, the limb words, and the written mark of each word (R22).
`limbs` and `limbWritten` hold NLIMB entries (`Block.Shape`). -/
structure BigReg where
  /-- `S`, bit 31 of HDR (R19). -/
  sign : Bool
  /-- `T`, bits 8:0 of HDR (R19). -/
  len : BitVec 9
  /-- `D[0]` to `D[NLIMB-1]`, each a bus word whose bits 31:DB are 0 (R20). -/
  limbs : List Word
  /-- The header word's written mark (R22). -/
  hdrWritten : Bool
  /-- The limb words' written marks (R22). -/
  limbWritten : List Bool
deriving DecidableEq, Repr

/-- The whole state of the block: the tuple of R36. -/
structure Block where
  /-- `r0` to `r(NREG-1)` with their written marks. -/
  regs : List BigReg
  /-- `LASTCMD` (R24). -/
  lastcmd : Word
  /-- `STATUS.BUSY` (R26). -/
  busy : Bool
  /-- `STATUS.DONE` (R27). -/
  done : Bool
  /-- `STATUS.Z` (R28). -/
  z : Bool
  /-- `STATUS.N` (R29). -/
  n : Bool
  /-- `STATUS.BUSYERR` (R31). -/
  busyerr : Bool
  /-- `CTRL.IE` (R32). -/
  ie : Bool
  /-- `STATUS.ERR` (R30). -/
  err : BitVec 3
  /-- The recorded model fault (R36). -/
  fault : Option FaultReason
deriving DecidableEq, Repr

/-- The width of a bus access in bits. Only `w32` is defined (20_memory.md R44). -/
inductive Width where
  | w8
  | w16
  | w32
  | w64
deriving DecidableEq, Repr

/-- A host bus access at a byte address. A write carries one 32-bit word: other widths are refused. -/
inductive Access where
  | read (width : Width) (addr : Nat)
  | write (width : Width) (addr : Nat) (data : Word)
deriving DecidableEq, Repr

/-- One turn of the total order of steps (00_scope.md R11, 20_memory.md R51): a host access, the engine's chance to
complete the in-flight command, or the reset input (70_reset_and_hazards.md R96). -/
inductive Turn where
  | host (a : Access)
  | engine
  | reset
deriving DecidableEq, Repr

/-- The machine: one build of the block, its state, and the model's own fields. -/
structure State where
  /-- The build parameters: constants of the block (00_scope.md R5). -/
  params : Params
  /-- The block's state (R36). -/
  block : Block
  /-- The model's own: the turns still to be taken, in order (log entry 2). -/
  schedule : List Turn
  /-- The model's own: what the latest host read returned (log entry 18). -/
  readData : Option Word
  /-- The model's own: how many free values have been drawn (log entry 6). -/
  draws : Nat
deriving DecidableEq, Repr

/-- A register after reset: every word is unwritten (R22, R39). The contents are unspecified; zero is a DESIGN
CHOICE (log entry 5; unsafe for a claim that looks at the contents of an unwritten word). -/
def BigReg.afterReset (p : Params) : BigReg where
  sign := false
  len := 0#9
  limbs := List.replicate p.nlimb 0#32
  hdrWritten := false
  limbWritten := List.replicate p.nlimb false

/-- The block after reset (R39, R96, R97). -/
def Block.afterReset (p : Params) : Block where
  regs := List.replicate p.nreg (BigReg.afterReset p)
  lastcmd := 0#32
  busy := false
  done := false
  z := false
  n := false
  busyerr := false
  ie := false
  err := 0#3
  fault := none

/-- The machine of a given build right after reset, with no turn scheduled. -/
def State.resetWith (p : Params) : State where
  params := p
  block := Block.afterReset p
  schedule := []
  readData := none
  draws := 0

/-- The machine right after reset, in the reference configuration (R5). -/
def State.reset : State := State.resetWith Params.reference

end Sys2Proof.Machine
end

