-- ==== Sys2Proof/Machine/Flags.lean ====
section
/-! DEFINITION. The flags of a result (spec 40_addsub.md R77), the error codes (60_exceptions.md R81), the packed
control words (10_state.md R23, R25, R32) and the interrupt output (R33). -/

namespace Sys2Proof.Machine

/-- `Z = (v = 0)` (R77). -/
def zFlag (v : Int) : Bool := decide (v = 0)

/-- `N = (v < 0)` (R77). -/
def nFlag (v : Int) : Bool := decide (v < 0)

/-- The 3-bit code of `STATUS.ERR` (R81). -/
def ErrCode.code : ErrCode → BitVec 3
  | .ok => 0#3
  | .illegal => 1#3
  | .badReg => 2#3
  | .badLen => 3#3
  | .overflow => 4#3

/-- `CFG` (R23): VERSION 31:24, NLIMB 23:16, NREG 11:8, DB 5:0. -/
def cfgWord (p : Params) : Word :=
  0x01#8 ++ BitVec.ofNat 8 p.nlimb ++ 0#4 ++ BitVec.ofNat 4 p.nreg ++ 0#2 ++ BitVec.ofNat 6 p.db

/-- `STATUS` (R25, R45): BUSYERR 8, ERR 6:4, N 3, Z 2, DONE 1, BUSY 0, the rest 0. -/
def Block.statusWord (b : Block) : Word :=
  0#23 ++ BitVec.ofBool b.busyerr ++ 0#1 ++ b.err ++ BitVec.ofBool b.n ++ BitVec.ofBool b.z ++
    BitVec.ofBool b.done ++ BitVec.ofBool b.busy

/-- `CTRL` (R32): IE in bit 0. -/
def Block.ctrlWord (b : Block) : Word := 0#31 ++ BitVec.ofBool b.ie

/-- The level output `irq = IE AND DONE` (R33, 60_exceptions.md R86). -/
def Block.irq (b : Block) : Bool := b.ie && b.done

/-- The write-one-to-clear effect of a host write of `w` to `STATUS` (R25). -/
def Block.clearStatus (b : Block) (w : Word) : Block :=
  { b with done := b.done && !w.getLsbD 1, busyerr := b.busyerr && !w.getLsbD 8 }

end Sys2Proof.Machine
end

