-- ==== Sys2Proof/Machine/Operands.lean ====
section
/-! DEFINITION. BigInt operands: the encoding and its value (spec 10_state.md R18), the canonical form (40_addsub.md
R66), clamp (R67), the carry algorithm (R69), and when a register is a legal operand (10_state.md R21, R22). -/

namespace Sys2Proof.Machine

/-- A BigInt encoding `(S, T, [D[0], D[1], …])`, least significant limb first; `T` is the number of digits. -/
structure BigEnc where
  sign : Bool
  digits : List Word
deriving DecidableEq, Repr

/-- `T` of an encoding. -/
def BigEnc.len (e : BigEnc) : Nat := e.digits.length

/-- The sign word `s`: -1 if `S = 1`, else 0 (00_scope.md R8, R9). -/
def signWord (sign : Bool) : Int := if sign then -1 else 0

/-- `sum_{i<k} D[i] * 2^(DB*i)` (R18). -/
def limbSum (db : Nat) (ds : List Word) : Nat → Nat
  | 0 => 0
  | k + 1 => limbSum db ds k + (ds.getD k 0#32).toNat * 2 ^ (db * k)

/-- `val(X)` (R18). -/
def BigEnc.val (db : Nat) (e : BigEnc) : Int :=
  limbSum db e.digits e.len + signWord e.sign * 2 ^ (db * e.len)

/-- Every digit is a limb: an integer in `[0, DM]` (00_scope.md R8). -/
abbrev BigEnc.Digits (db : Nat) (e : BigEnc) : Prop := ∀ d ∈ e.digits, d.toNat < 2 ^ db

/-- The limb that the sign word stands for above the top: 0 or `DM` (R18, R67). -/
def signLimb (db : Nat) (sign : Bool) : Word := if sign then BitVec.ofNat 32 (2 ^ db - 1) else 0#32

/-- `n` limbs are enough for `v` (the condition of R66's least `n`). -/
def fitsIn (db : Nat) (v : Int) (n : Nat) : Bool :=
  if v < 0 then decide (-(2 ^ (db * n)) ≤ v) else decide (v < 2 ^ (db * n))

/-- The least `n' >= n` that passes `f`, looked for in `fuel` places; `n + fuel` if none does. -/
def leastFrom (f : Nat → Bool) : (fuel n : Nat) → Nat
  | 0, n => n
  | fuel + 1, n => if f n then n else leastFrom f fuel (n + 1)

/-- The canonical length `t` of R66: the least `n` with `fitsIn db v n`. One limb a bit of `v` is always enough. -/
def canonLen (db : Nat) (v : Int) : Nat := leastFrom (fitsIn db v) (v.natAbs.log2 + 1) 0

/-- The low `k` digits of a natural number in base `2^DB`: `floor(u / 2^(DB*i)) mod DV` (R66). -/
def digitsOf (db u k : Nat) : List Word := (List.range k).map fun i => BitVec.ofNat 32 (u / 2 ^ (db * i) % 2 ^ db)

/-- `canon(v)`, the canonical encoding of an integer (R66). -/
def canon (db : Nat) (v : Int) : BigEnc :=
  let sign := decide (v < 0)
  let t := canonLen db v
  { sign := sign, digits := digitsOf db (v - signWord sign * 2 ^ (db * t)).toNat t }

/-- The loop of `clamp` (R67): the length left when the leading limbs equal to the sign limb are dropped. -/
def clampLen (db : Nat) (sign : Bool) (r : List Word) : Nat → Nat
  | 0 => 0
  | t + 1 => if r.getD t 0#32 = signLimb db sign then clampLen db sign r t else t + 1

/-- `clamp(s, t, r)` with `t` the number of limbs of `r` (R67). -/
def clamp (db : Nat) (sign : Bool) (r : List Word) : BigEnc :=
  { sign := sign, digits := r.take (clampLen db sign r r.length) }

/-- An encoding that clamp leaves unchanged (R67, 00_scope.md R13). -/
abbrev BigEnc.Canonical (db : Nat) (e : BigEnc) : Prop := clamp db e.sign e.digits = e

/-- `ext(X, i)`: limb `i`, or the sign-extended limb above the top (R69). -/
def ext (db : Nat) (e : BigEnc) (i : Nat) : Int :=
  if i < e.len then (e.digits.getD i 0#32).toNat else if e.sign then 2 ^ db - 1 else 0

/-- What one turn of the loop of R69 adds to the carry: `ext(A, i)` plus or minus `ext(B, i)`. -/
def limbTerm (db : Nat) (sub : Bool) (a b : BigEnc) (i : Nat) : Int :=
  ext db a i + (if sub then -ext db b i else ext db b i)

/-- `k` turns of the loop of R69: the limbs `r[0..k-1]` and the carry. -/
def carryLoop (db : Nat) (sub : Bool) (a b : BigEnc) : Nat → List Word × Int
  | 0 => ([], 0)
  | k + 1 =>
    let rc := carryLoop db sub a b k
    let c := rc.2 + limbTerm db sub a b k
    (rc.1 ++ [BitVec.ofInt 32 (c % 2 ^ db)], c / 2 ^ db)

/-- The carry after the sign words are folded in (R69). -/
def foldSigns (sub : Bool) (a b : BigEnc) (c : Int) : Int :=
  c + signWord a.sign + (if sub then -signWord b.sign else signWord b.sign)

/-- `addsub(A, B, sub)`: the limb-wise carry algorithm (R69). R70 is the normative statement, and the meanings use
it; this algorithm is one that meets it. -/
def addsub (db : Nat) (sub : Bool) (a b : BigEnc) : BigEnc :=
  let m := max a.len b.len
  let rc := carryLoop db sub a b m
  let c := foldSigns sub a b rc.2
  let r :=
    if c < -1 then rc.1 ++ [BitVec.ofInt 32 (2 ^ db + c)]
    else if 0 < c then rc.1 ++ [BitVec.ofInt 32 c]
    else rc.1
  clamp db (decide (c < 0)) r

/-- The exact integer result of a command (R70): `a - b` for SUB, `a + b` for ADD. -/
def exactResult (sub : Bool) (a b : Int) : Int := if sub then a - b else a + b

/-- The BigInt that a register holds: its sign and its low `T` limbs (R18). -/
def BigReg.enc (r : BigReg) : BigEnc := { sign := r.sign, digits := r.limbs.take r.len.toNat }

/-- `val(REG[n])` (R18). -/
def BigReg.val (db : Nat) (r : BigReg) : Int := r.enc.val db

/-- Every limb word that counts, `D[i]` with `i < T`, is written (R22). -/
def BigReg.limbsReady (r : BigReg) : Bool := (List.range r.len.toNat).all fun i => r.limbWritten.getD i false

/-- A legal operand (R21): `T <= NLIMB` and every word that is read is written. -/
abbrev BigReg.LegalOperand (p : Params) (r : BigReg) : Prop :=
  r.hdrWritten = true ∧ r.len.toNat ≤ p.nlimb ∧ r.limbsReady = true

/-- `REG[n]`; for an index that names no register, a register as after reset (no rule reads one). -/
def Block.reg (p : Params) (b : Block) (k : Nat) : BigReg := b.regs.getD k (BigReg.afterReset p)

end Sys2Proof.Machine
end

