-- ==== Sys2Proof/Machine/Ops.lean ====
section
/-! DEFINITION. The named operations on the block: writing register words (spec 20_memory.md R46), accepting a command
(R47), the completion of a command with a result (40_addsub.md R72, R73), with an error (60_exceptions.md R82) or with a
model fault (R84), and reset (70_reset_and_hazards.md R96-R98). The block takes no trap: the error completion is its
one exceptional outcome, and there is no return from it (R80, R87, R88). -/

namespace Sys2Proof.Machine

/-- `REG[k] <- r`. -/
def Block.setReg (b : Block) (k : Nat) (r : BigReg) : Block := { b with regs := b.regs.set k r }

/-- `HDR` as read (10_state.md R19): S in bit 31, T in bits 8:0. -/
def BigReg.hdrWord (r : BigReg) : Word := BitVec.ofBool r.sign ++ 0#22 ++ r.len

/-- The bits of a limb word that exist: `DB-1:0` (10_state.md R20). -/
def digitMask (p : Params) : Word := BitVec.ofNat 32 (2 ^ p.db - 1)

/-- The bits of a header word that exist: 31 and 8:0 (10_state.md R19). -/
def hdrMask : Word := 0x800001FF#32

/-- A header word stored (R19, R46): `S <- w[31]`, `T <- w[8:0]`, and the word is written. -/
def BigReg.storeHdr (r : BigReg) (w : Word) : BigReg :=
  { r with sign := w.getLsbD 31, len := w.setWidth 9, hdrWritten := true }

/-- A limb word stored (R20, R46): `D[i] <- w[DB-1:0]`, and the word is written. -/
def BigReg.storeLimb (p : Params) (r : BigReg) (i : Nat) (w : Word) : BigReg :=
  { r with limbs := r.limbs.set i (w &&& digitMask p), limbWritten := r.limbWritten.set i true }

/-- Acceptance of a command word (R47). It checks nothing. -/
def Block.accept (b : Block) (w : Word) : Block :=
  { b with lastcmd := w, busy := true, done := false, err := ErrCode.ok.code, z := false, n := false }

/-- `finish_err(code)`, the error completion (60_exceptions.md R82). -/
def Block.finishErr (b : Block) (c : ErrCode) : Block :=
  { b with err := c.code, z := false, n := false, busy := false, done := true }

/-- A model fault recorded (R72, R84): `BUSY` stays as it is. -/
def Block.recordFault (b : Block) (r : FaultReason) : Block := { b with fault := some r }

/-- The register that a commit of `e` writes (R73): limbs above the top are 0 and every word is written. -/
def BigReg.committed (p : Params) (e : BigEnc) : BigReg where
  sign := e.sign
  len := BitVec.ofNat 9 e.len
  limbs := e.digits ++ List.replicate (p.nlimb - e.len) 0#32
  hdrWritten := true
  limbWritten := List.replicate p.nlimb true

/-- The successful completion (R72, R73, R77): commit `canon(v)` and set the flags from `v`. -/
def Block.finishOk (p : Params) (b : Block) (rd : Nat) (v : Int) : Block :=
  { b.setReg rd (BigReg.committed p (canon p.db v)) with
    z := zFlag v, n := nFlag v, err := ErrCode.ok.code, busy := false, done := true }

/-- How the completion of a decoded command ends (R72). -/
inductive Verdict where
  /-- With an error code (R82). -/
  | error (c : ErrCode)
  /-- With a recorded model fault (R84). -/
  | fault (r : FaultReason)
  /-- With the integer `v` committed (R73). -/
  | commit (v : Int)
deriving DecidableEq, Repr

/-- The checks of R72 in the order of 60_exceptions.md R83, and the exact result. Both operands are read here, before
any write (R74). -/
def Block.judge (p : Params) (b : Block) (sub : Bool) (rd rs1 rs2 : Nat) : Verdict :=
  let a := b.reg p rs1
  let c := b.reg p rs2
  let v := exactResult sub (a.val p.db) (c.val p.db)
  if p.nreg ≤ rd ∨ p.nreg ≤ rs1 ∨ p.nreg ≤ rs2 then .error .badReg
  else if a.hdrWritten = false ∨ c.hdrWritten = false then .fault .unwrittenOperand
  else if p.nlimb < a.len.toNat ∨ p.nlimb < c.len.toNat then .error .badLen
  else if a.limbsReady = false ∨ c.limbsReady = false then .fault .unwrittenOperand
  else if p.nlimb < (canon p.db v).len then .error .overflow
  else .commit v

/-- What a verdict does to the block (R72). -/
def Block.conclude (p : Params) (b : Block) (rd : Nat) : Verdict → Block
  | .error c => b.finishErr c
  | .fault r => b.recordFault r
  | .commit v => b.finishOk p rd v

/-- The completion of a decoded ADD or SUB (R72), below the decoder. -/
def completeAddSub (sub : Bool) (rd rs1 rs2 : Nat) (s : State) : State :=
  { s with block := s.block.conclude s.params rd (s.block.judge s.params sub rd rs1 rs2) }

/-- The completion of an Illegal command word (R59, R72). -/
def completeIllegal (s : State) : State := { s with block := s.block.finishErr .illegal }

/-- The reset input (R96-R98): every piece of the block's state takes its reset value in one step, a command in
flight is lost, and the recorded fault is cleared with the rest (log entry 8). The build, the turns that remain and
the host's own data are no state of the block. -/
def resetTurn (s : State) : State := { s with block := Block.afterReset s.params }

end Sys2Proof.Machine
end

