-- ==== Sys2Proof/Machine/Bus.lean ====
section
/-! DEFINITION. The bus window (spec 20_memory.md R40-R42), `BusRead` (R45), `BusWrite` (R46-R48), and a host access as
one turn (R44, R50). -/

namespace Sys2Proof.Machine

/-- What a word offset of the window names (R41, R42). -/
inductive Target where
  | cfg
  | cmd
  | status
  | ctrl
  /-- `HDR` of register `k`. -/
  | hdr (k : Nat)
  /-- Limb `D[i]` of register `k`. -/
  | limb (k i : Nat)
  /-- Reads as zero, writes are ignored. -/
  | razwi
deriving DecidableEq, Repr

/-- The address map (R41, R42), for a word-aligned offset of the window. Register `k` has its 1 KiB at
`0x1000 + 0x400*k`: `HDR` first, then the limbs. -/
def targetOf (p : Params) (off : Nat) : Target :=
  if off = 0x000 then .cfg
  else if off = 0x004 then .cmd
  else if off = 0x008 then .status
  else if off = 0x00C then .ctrl
  else if off < 0x1000 then .razwi
  else
    let k := (off - 0x1000) / 0x400
    let r := (off - 0x1000) % 0x400
    if p.nreg ≤ k then .razwi
    else if r = 0 then .hdr k
    else if (r - 4) / 4 < p.nlimb then .limb k ((r - 4) / 4)
    else .razwi

/-- Offset of register `k`'s header (R42). -/
def hdrOffset (k : Nat) : Nat := 0x1000 + 0x400 * k

/-- Offset of limb `i` of register `k` (R42). -/
def limbOffset (k i : Nat) : Nat := 0x1000 + 0x400 * k + 4 + 4 * i

/-- Is the target a mapped register-file word (R42)? -/
def Target.isRegFile : Target → Bool
  | .hdr _ => true
  | .limb _ _ => true
  | _ => false

/-- `BusRead` of a target (R45). `none`: an unwritten register-file word, which answers with a draw (10_state.md R22). -/
def Block.readTarget (p : Params) (b : Block) : Target → Option Word
  | .cfg => some (cfgWord p)
  | .cmd => some b.lastcmd
  | .status => some b.statusWord
  | .ctrl => some b.ctrlWord
  | .hdr k => if (b.reg p k).hdrWritten then some (b.reg p k).hdrWord else none
  | .limb k i => if (b.reg p k).limbWritten.getD i false then some ((b.reg p k).limbs.getD i 0#32) else none
  | .razwi => some 0#32

/-- The bits that a draw for an unwritten word may set: its RAZ fields are zero (10_state.md R22). -/
def Target.drawMask (p : Params) : Target → Word
  | .hdr _ => hdrMask
  | .limb _ _ => digitMask p
  | _ => 0#32

/-- A host read of a target: it changes no state of the block (R45). A draw is a free value (log entry 6). -/
def hostRead (t : Target) (s : State) : State :=
  match s.block.readTarget s.params t with
  | some w => { s with readData := some w }
  | none => { s with readData := some (Config.draw s.draws &&& t.drawMask s.params), draws := s.draws + 1 }

/-- A write that is dropped because a command is in flight (R48). -/
def Block.dropWrite (b : Block) : Block := { b with busyerr := true }

/-- `BusWrite` of a target (R46 with `BUSY = 0`, R48 with `BUSY = 1`). -/
def Block.writeTarget (p : Params) (b : Block) (w : Word) : Target → Block
  | .cfg => b
  | .cmd => if b.busy then b.dropWrite else b.accept w
  | .status => b.clearStatus w
  | .ctrl => { b with ie := w.getLsbD 0 }
  | .hdr k => if b.busy then b.dropWrite else b.setReg k ((b.reg p k).storeHdr w)
  | .limb k i => if b.busy then b.dropWrite else b.setReg k ((b.reg p k).storeLimb p i w)
  | .razwi => b

/-- A host write of a target. -/
def hostWrite (t : Target) (w : Word) (s : State) : State :=
  { s with block := s.block.writeTarget s.params w t }

/-- The address of an access. -/
def Access.addr : Access → Nat
  | .read _ a => a
  | .write _ a _ => a

/-- The width of an access. -/
def Access.width : Access → Width
  | .read w _ => w
  | .write w _ _ => w

/-- An address inside the window `BASE` to `BASE + 0x3FFF` (R40). -/
abbrev InWindow (p : Params) (addr : Nat) : Prop := p.base ≤ addr ∧ addr < p.base + windowBytes

/-- An access that the host's duties allow (R44, 70_reset_and_hazards.md R103): 32 bits wide, inside the window, at an
offset that is a multiple of 4. -/
abbrev Access.Legal (p : Params) (a : Access) : Prop :=
  InWindow p a.addr ∧ a.width = .w32 ∧ (a.addr - p.base) % 4 = 0

/-- The effect of a legal access. -/
def Access.perform (a : Access) (s : State) : State :=
  match a with
  | .read _ addr => hostRead (targetOf s.params (addr - s.params.base)) s
  | .write _ addr w => hostWrite (targetOf s.params (addr - s.params.base)) w s

/-- One host access is one step (00_scope.md R11, R50). Accesses outside the interface are refused (R44); an address
outside the window is no address of the block (log entry 10). -/
def hostTurn (a : Access) (s : State) : Host.Outcome State Fault Refusal :=
  if ¬ InWindow s.params a.addr then .fault .outsideWindow
  else if a.width ≠ .w32 then .refused .accessWidth
  else if (a.addr - s.params.base) % 4 ≠ 0 then .refused .misaligned
  else .next (a.perform s)

/-- `st32 OFF, VALUE`, that is `BusWrite(OFF, VALUE)` (30_encoding.md R64). -/
def st32 (p : Params) (off : Nat) (w : Word) : Turn := .host (.write .w32 (p.base + off) w)

/-- `ld32 OFF`, that is `BusRead(OFF)` (30_encoding.md R64). -/
def ld32 (p : Params) (off : Nat) : Turn := .host (.read .w32 (p.base + off))

end Sys2Proof.Machine
end

