-- ==== Sys2Proof/Machine/AddSub.lean ====
section
/-! DEFINITION. The meanings of ADD and SUB (spec 40_addsub.md R75, R76): the completion step of R72 for each, below the
decoder. Every check is made here, at completion (20_memory.md R47). -/

namespace Sys2Proof.Machine

/-- `ADD rd, rs1, rs2`: `REG[rd] <- canon(val(REG[rs1]) + val(REG[rs2]))` (R75). -/
def execAdd (rd rs1 rs2 : Nat) (s : State) : Host.Outcome State Fault Refusal :=
  .next (completeAddSub false rd rs1 rs2 s)

/-- `SUB rd, rs1, rs2`: `REG[rd] <- canon(val(REG[rs1]) - val(REG[rs2]))` (R76). -/
def execSub (rd rs1 rs2 : Nat) (s : State) : Host.Outcome State Fault Refusal :=
  .next (completeAddSub true rd rs1 rs2 s)

end Sys2Proof.Machine
end

