-- ==== Sys2Proof/Machine/Engine.lean ====
section
/-! DEFINITION. The engine's completion step (spec 40_addsub.md R72) and what each turn of the total order does
(00_scope.md R11, 20_memory.md R51). -/

namespace Sys2Proof.Machine

/-- The completion step is enabled when `BUSY = 1` and no model fault is recorded (R72). -/
abbrev Block.Enabled (b : Block) : Prop := b.busy = true ∧ b.fault = none

/-- `Complete()` (R72): decode `LASTCMD`, then run the command or complete with `ILLEGAL`. -/
def completeStep (s : State) : Host.Outcome State Fault Refusal :=
  match decode s.block.lastcmd with
  | .ok i => exec i s
  | .error _ => .next (completeIllegal s)

/-- The engine's turn: its one step where that is enabled, else nothing happens (log entry 3). -/
def engineTurn (s : State) : Host.Outcome State Fault Refusal :=
  if s.block.Enabled then completeStep s else .next s

/-- One scheduled turn. -/
def takeTurn (t : Turn) (s : State) : Host.Outcome State Fault Refusal :=
  match t with
  | .host a => hostTurn a s
  | .engine => engineTurn s
  | .reset => .next (resetTurn s)

/-- No turn is scheduled. The engine's step, if enabled, is the only one left, and by fairness it is taken
(70_reset_and_hazards.md R104; log entry 4). With a recorded fault the engine has no further step and the state is
never final (60_exceptions.md R84; 93_implementation_defined.md S3: no completion step follows, and the run has no final
state), so with no turn left nothing can move (log entry 7). Otherwise the run is over (R106) and the block stays as it
is. -/
def idle (s : State) : Host.Outcome State Fault Refusal :=
  if s.block.Enabled then completeStep s
  else
    match s.block.fault with
    | some r => .fault (.recorded r)
    | none => .next s

end Sys2Proof.Machine
end

