-- ==== Sys2Proof/Machine/Step.lean ====
section
/-! DEFINITION. One step of the machine, and the state in which a given command word is the next to run. -/

namespace Sys2Proof.Machine

/-- One step: the next turn of the schedule, or `idle` when none is left. -/
def step (s : State) : Host.Outcome State Fault Refusal :=
  match s.schedule with
  | [] => idle s
  | t :: rest => takeTurn t { s with schedule := rest }

/-- `s` with the command word `w` accepted (20_memory.md R47, as by a host write to `CMD`) and the engine's turn next,
so that the very next step completes that command. The engine needs `fault = none` to have a step. The block fetches
no instructions: this stands for the host's write of the command (log entry 9). -/
def State.withFetchWord (s : State) (nbits w : Nat) : State :=
  { s with
    block := { s.block.accept (BitVec.ofNat 32 (w % 2 ^ nbits)) with fault := none }
    schedule := .engine :: s.schedule }

end Sys2Proof.Machine
end

