-- ==== Sys2Proof/Machine/Assembler.lean ====
section
/-! DEFINITION. The assembler syntax of the command word (spec 30_encoding.md R62) and its pseudo-instructions (R63), on
lists of characters. The spec writes one space after the mnemonic and a comma and one space between operands; only
that spacing is read (log entry 17). -/

namespace Sys2Proof

/-- `r0` to `r7` (R62). -/
def regName (k : Nat) : List Char := ['r', Nat.digitChar k]

/-- `rd, rs1, rs2` as the spec writes it. -/
def regNames (rd rs1 rs2 : Nat) : List Char := regName rd ++ [',', ' '] ++ regName rs1 ++ [',', ' '] ++ regName rs2

/-- The text of a command (R62). -/
def Instr.asm : Instr → List Char
  | .add rd rs1 rs2 => ['A', 'D', 'D', ' '] ++ regNames rd rs1 rs2
  | .sub rd rs1 rs2 => ['S', 'U', 'B', ' '] ++ regNames rd rs1 rs2

/-- A register operand at the front of a text. -/
def parseReg : List Char → Option (Nat × List Char)
  | c :: d :: rest => if c = 'r' ∧ 48 ≤ d.toNat ∧ d.toNat < 56 then some (d.toNat - 48, rest) else none
  | _ => none

/-- `n` register operands, which are all of the text, each after the first preceded by a comma and a space. -/
def parseRegs : Nat → List Char → Option (List Nat)
  | 0, cs => if cs = [] then some [] else none
  | n + 1, cs =>
    match parseReg cs with
    | none => none
    | some (k, rest) =>
      if n = 0 then (if rest = [] then some [k] else none)
      else
        match rest with
        | ',' :: ' ' :: rest' => (parseRegs n rest').map (k :: ·)
        | _ => none

/-- What a mnemonic in lower case stands for with its operands (R62, R63). -/
def instrOf (mnemonic : List Char) (rest : List Char) : Option Instr :=
  if mnemonic = ['a', 'd', 'd'] then
    match parseRegs 3 rest with
    | some [rd, rs1, rs2] => some (.add rd rs1 rs2)
    | _ => none
  else if mnemonic = ['s', 'u', 'b'] then
    match parseRegs 3 rest with
    | some [rd, rs1, rs2] => some (.sub rd rs1 rs2)
    | _ => none
  else if mnemonic = ['d', 'b', 'l'] then
    match parseRegs 2 rest with
    | some [rd, rs] => some (.dbl rd rs)
    | _ => none
  else if mnemonic = ['z', 'e', 'r', 'o'] then
    match parseRegs 2 rest with
    | some [rd, rs] => some (.zero rd rs)
    | _ => none
  else if mnemonic = ['n', 'e', 'g'] then
    match parseRegs 3 rest with
    | some [rd, rz, rs] => some (.neg rd rz rs)
    | _ => none
  else none

/-- The command that a line of text stands for. Mnemonics are case-insensitive (R62). -/
def parseAsm (cs : List Char) : Option Instr :=
  match cs.dropWhile (fun c => decide (c ≠ ' ')) with
  | _ :: rest => instrOf ((cs.takeWhile fun c => decide (c ≠ ' ')).map Char.toLower) rest
  | [] => none

end Sys2Proof
end

