-- ==== Sys2Proof/Safety.lean ====
section
/-! DEFINITION. What the claims mean by a well-shaped register file, the machine invariant, a final state, a command
that completes, and states that differ only in what unwritten words hold. -/

namespace Sys2Proof.Machine

/-- A register has NLIMB limb words, each a limb in `[0, DM]` and each with its written mark (spec 10_state.md R15, R20). -/
abbrev BigReg.Shape (p : Params) (r : BigReg) : Prop :=
  r.limbs.length = p.nlimb ∧ r.limbWritten.length = p.nlimb ∧ ∀ d ∈ r.limbs, d.toNat < 2 ^ p.db

/-- The register file has NREG such registers (R15). -/
abbrev Block.Shape (p : Params) (b : Block) : Prop :=
  b.regs.length = p.nreg ∧ ∀ r ∈ b.regs, r.Shape p

/-- What the status fields always satisfy: codes 5 to 7 are never produced (R30); Z and N are never both 1 (R29), and
neither is 1 beside an error (R28, R29); while a command is in flight, DONE, ERR, Z and N are 0 (20_memory.md R47,
70_reset_and_hazards.md R100); a recorded fault leaves BUSY at 1 (40_addsub.md R72). -/
abbrev Block.StatusInv (b : Block) : Prop :=
  b.err.toNat ≤ 4 ∧ ¬(b.z = true ∧ b.n = true) ∧ (b.z = true ∨ b.n = true → b.err = 0#3) ∧
  (b.busy = true → b.done = false ∧ b.err = 0#3 ∧ b.z = false ∧ b.n = false) ∧
  (b.fault ≠ none → b.busy = true)

/-- The machine invariant: a legal build, a well-shaped register file, and the status rules. -/
abbrev State.Inv (s : State) : Prop :=
  s.params.Legal ∧ s.block.Shape s.params ∧ s.block.StatusInv

/-- A turn that is a host access. -/
def Turn.isHost : Turn → Bool
  | .host _ => true
  | _ => false

/-- A turn that the host's duties allow: any engine or reset turn, or a legal access (70_reset_and_hazards.md R103). -/
abbrev Turn.Legal (p : Params) : Turn → Prop
  | .host a => a.Legal p
  | _ => True

/-- The end of a run (70_reset_and_hazards.md R106): no host access left, `BUSY = 0`, no model fault. -/
abbrev State.Final (s : State) : Prop :=
  (∀ t ∈ s.schedule, t.isHost = false) ∧ s.block.busy = false ∧ s.block.fault = none

/-- Register `k` exists and is a legal operand (10_state.md R21). -/
abbrev Block.OperandOk (p : Params) (b : Block) (k : Nat) : Prop := k < p.nreg ∧ (b.reg p k).LegalOperand p

/-- The exact result of a command, from the integers that its source registers denote (40_addsub.md R70). -/
def resultOf (sub : Bool) (p : Params) (b : Block) (rs1 rs2 : Nat) : Int :=
  exactResult sub ((b.reg p rs1).val p.db) ((b.reg p rs2).val p.db)

/-- The command runs to a commit: its indices exist, its operands are legal, and its canonical result fits NLIMB limbs. -/
abbrev Block.Commits (p : Params) (b : Block) (sub : Bool) (rd rs1 rs2 : Nat) : Prop :=
  rd < p.nreg ∧ b.OperandOk p rs1 ∧ b.OperandOk p rs2 ∧ (canon p.db (resultOf sub p b rs1 rs2)).len ≤ p.nlimb

/-- Everything that is not the register file, the flags, ERR, BUSY, DONE or the recorded fault is the same in two states. -/
abbrev State.SameRest (s t : State) : Prop :=
  t.params = s.params ∧ t.schedule = s.schedule ∧ t.readData = s.readData ∧ t.draws = s.draws ∧
  t.block.lastcmd = s.block.lastcmd ∧ t.block.busyerr = s.block.busyerr ∧ t.block.ie = s.block.ie

/-- The host's next access is `BusWrite(off, w)`. -/
abbrev State.HostWrites (s : State) (off : Nat) (w : Word) : Prop := ∃ rest, s.schedule = st32 s.params off w :: rest

/-- The next step accepts the command word `w` (20_memory.md R47). -/
abbrev State.Accepts (s : State) (w : Word) : Prop := s.HostWrites 0x004 w ∧ s.block.busy = false

/-- The next step is the engine's completion step (40_addsub.md R72): at its turn, or, in the model's form of fairness,
with no turn left (log entry 4). -/
abbrev State.Completes (s : State) : Prop :=
  s.block.Enabled ∧ (s.schedule = [] ∨ s.schedule.head? = some .engine)

/-- The next step is the reset input. -/
abbrev State.Resets (s : State) : Prop := s.schedule.head? = some .reset

/-- `BusRead(off)` as the next step returns `w` and changes nothing else. -/
def State.ReadsAs (s : State) (off : Nat) (w : Word) : Prop :=
  ∀ rest, step { s with schedule := ld32 s.params off :: rest } = .next { s with schedule := rest, readData := some w }

/-- `BusRead(off)` as the next step returns one fresh draw: any word without a bit outside `mask` (10_state.md R22). -/
def State.ReadsDraw (s : State) (off : Nat) (mask : Word) : Prop :=
  ∀ rest, ∃ w, step { s with schedule := ld32 s.params off :: rest } =
    .next { s with schedule := rest, readData := some w, draws := s.draws + 1 } ∧ w &&& ~~~mask = 0#32

/-- `BusWrite(off, w)` as the next step leaves the block as `b` and changes nothing else. -/
def State.WritesTo (s : State) (off : Nat) (w : Word) (b : Block) : Prop :=
  ∀ rest, step { s with schedule := st32 s.params off w :: rest } = .next { s with schedule := rest, block := b }

/-- A word-aligned offset of the window that names no control register and no mapped register-file word (20_memory.md
R41, R42). -/
abbrev RazWi (p : Params) (off : Nat) : Prop :=
  off < windowBytes ∧ off % 4 = 0 ∧ off ≠ 0x000 ∧ off ≠ 0x004 ∧ off ≠ 0x008 ∧ off ≠ 0x00C ∧
  (∀ k < p.nreg, off ≠ hdrOffset k) ∧ ∀ k < p.nreg, ∀ i < p.nlimb, off ≠ limbOffset k i

/-- An error completion with code `c` (60_exceptions.md R82): what it sets, and that nothing else changes. -/
abbrev ErrorCompletion (s t : State) (c : ErrCode) : Prop :=
  t.block.err = c.code ∧ t.block.z = false ∧ t.block.n = false ∧ t.block.busy = false ∧ t.block.done = true ∧
  t.block.regs = s.block.regs ∧ t.block.fault = s.block.fault ∧ s.SameRest t

/-- A recorded model fault (40_addsub.md R72, 60_exceptions.md R84): nothing else changes, `BUSY` included. -/
abbrev FaultRecorded (s t : State) : Prop :=
  t = { s with block := { s.block with fault := some .unwrittenOperand } }

/-- ADD (`sub = false`) or SUB (`sub = true`) with the given operands. -/
def addSubInstr (sub : Bool) (rd rs1 rs2 : Nat) : Instr := if sub then .sub rd rs1 rs2 else .add rd rs1 rs2

/-- A successful completion that commits the integer `v` to register `rd` (40_addsub.md R72, R73, R77): the register
denotes `v` in canonical form with zeros above and every word written, the flags are those of `v`, and nothing else
changes. -/
abbrev CommitOf (s t : State) (rd : Nat) (v : Int) : Prop :=
  (t.block.reg s.params rd).val s.params.db = v ∧
  (t.block.reg s.params rd).enc = canon s.params.db v ∧
  (t.block.reg s.params rd).enc.Canonical s.params.db ∧
  (t.block.reg s.params rd).len.toNat = (canon s.params.db v).len ∧
  (∀ i, (canon s.params.db v).len ≤ i → (t.block.reg s.params rd).limbs.getD i 0#32 = 0#32) ∧
  (t.block.reg s.params rd).Shape s.params ∧
  (t.block.reg s.params rd).hdrWritten = true ∧
  (∀ i < s.params.nlimb, (t.block.reg s.params rd).limbWritten.getD i false = true) ∧
  (t.block.z = true ↔ v = 0) ∧ (t.block.n = true ↔ v < 0) ∧ t.block.err = 0#3 ∧
  t.block.busy = false ∧ t.block.done = true ∧
  (∀ k, k ≠ rd → t.block.reg s.params k = s.block.reg s.params k) ∧
  t.block.regs.length = s.block.regs.length ∧ t.block.fault = s.block.fault ∧ s.SameRest t

/-- Two registers agree but for what their unwritten words hold. -/
abbrev BigReg.AgreeOnWritten (r r' : BigReg) : Prop :=
  r.hdrWritten = r'.hdrWritten ∧ r.limbWritten = r'.limbWritten ∧
  (r.hdrWritten = true → r.sign = r'.sign ∧ r.len = r'.len) ∧
  ∀ i, r.limbWritten.getD i false = true → r.limbs.getD i 0#32 = r'.limbs.getD i 0#32

/-- Two states agree but for what unwritten register-file words hold (10_state.md R22). -/
abbrev State.AgreeOnWritten (s s' : State) : Prop :=
  s.params = s'.params ∧ s.schedule = s'.schedule ∧ s.readData = s'.readData ∧ s.draws = s'.draws ∧
  s.block.lastcmd = s'.block.lastcmd ∧ s.block.busy = s'.block.busy ∧ s.block.done = s'.block.done ∧
  s.block.z = s'.block.z ∧ s.block.n = s'.block.n ∧ s.block.busyerr = s'.block.busyerr ∧
  s.block.ie = s'.block.ie ∧ s.block.err = s'.block.err ∧ s.block.fault = s'.block.fault ∧
  s.block.regs.length = s'.block.regs.length ∧
  ∀ k, k < s.params.nreg → (s.block.reg s.params k).AgreeOnWritten (s'.block.reg s.params k)

/-- Two outcomes of a step agree but for what unwritten words hold. -/
def OutcomesAgree : Host.Outcome State Fault Refusal → Host.Outcome State Fault Refusal → Prop
  | .next s, .next s' => s.AgreeOnWritten s'
  | .fault f, .fault f' => f = f'
  | .refused r, .refused r' => r = r'
  | _, _ => False

end Sys2Proof.Machine
end

