-- ==== Sys2Proof/Certificates/Slice0/Obligations.lean ====
section
/-! DEFINITION. The statements for the provers. Each names the rule of spec/ it formalises; "model's choice" and a log
entry mark what the spec does not say. -/

open Sys2Proof Sys2Proof.Machine

/-! ### The command word -/

/-- Decode and encode agree on every well-formed instruction (30_encoding.md R60, R62). -/
def Obligations.DecodeEncodeRoundTrip : Prop :=
  ∀ i : Instr, i.WellFormed → decode (encode i) = .ok i

/-- Each legal word has one meaning, and it is the encoding of that meaning (30_encoding.md R60, R62). -/
def Obligations.DecodedWordsEncodeBack : Prop :=
  ∀ (w : Word) (i : Instr), decode w = .ok i → i.WellFormed ∧ encode i = w

/-- The decoder of 30_encoding.md R60, case by case in plain arithmetic, and its counts: 512 words are ADD, 512 are
SUB, the other `2^32 - 1024` are Illegal. -/
def Obligations.DecoderFollowsTheOpcodeMap : Prop :=
  (∀ w : Word, w &&& 0xFFF888F0#32 ≠ 0#32 → ∃ e, decode w = .error e) ∧
  (∀ w : Word, w &&& 0xFFF888F0#32 = 0#32 →
    (w.toNat % 16 = 1 →
      decode w = .ok (.add (w.toNat / 2 ^ 8 % 8) (w.toNat / 2 ^ 12 % 8) (w.toNat / 2 ^ 16 % 8))) ∧
    (w.toNat % 16 = 2 →
      decode w = .ok (.sub (w.toNat / 2 ^ 8 % 8) (w.toNat / 2 ^ 12 % 8) (w.toNat / 2 ^ 16 % 8))) ∧
    (w.toNat % 16 ≠ 1 → w.toNat % 16 ≠ 2 → ∃ e, decode w = .error e)) ∧
  Set.ncard {w : Word | ∃ rd rs1 rs2, decode w = .ok (.add rd rs1 rs2)} = 512 ∧
  Set.ncard {w : Word | ∃ rd rs1 rs2, decode w = .ok (.sub rd rs1 rs2)} = 512 ∧
  Set.ncard {w : Word | ∃ e, decode w = .error e} = 2 ^ 32 - 1024

/-- Words written out from the spec decode to what the spec says (95_test_vectors.md E20-E22, 30_encoding.md R62). -/
def Obligations.SampleCommandWordsDecode : Prop :=
  decode 0x00010201#32 = .ok (.add 2 0 1) ∧ decode 0x00010202#32 = .ok (.sub 2 0 1) ∧
  decode 0x00077702#32 = .ok (.sub 7 7 7) ∧ decode 0x00051001#32 = .ok (.add 0 1 5) ∧
  decode 0x00080001#32 = .error .reservedBits ∧ decode 0x00000000#32 = .error .reservedOp

/-- The encoding formula and the assembler syntax of 30_encoding.md R62: the reader of texts reads what is printed,
with the mnemonic in any case. The spacing of a text is the model's choice (log entry 17). -/
def Obligations.AssemblerSyntaxAndEncodingFormula : Prop :=
  (∀ i : Instr, i.WellFormed → parseAsm i.asm = some i) ∧
  ∀ rd rs1 rs2 : Nat, rd < 8 → rs1 < 8 → rs2 < 8 →
    (encode (.add rd rs1 rs2)).toNat = (rs2 <<< 16 ||| rs1 <<< 12 ||| rd <<< 8 ||| 1) ∧
    (encode (.sub rd rs1 rs2)).toNat = (rs2 <<< 16 ||| rs1 <<< 12 ||| rd <<< 8 ||| 2) ∧
    (∀ m : List Char, m.map Char.toLower = ['a', 'd', 'd'] →
      parseAsm (m ++ ' ' :: regNames rd rs1 rs2) = some (.add rd rs1 rs2)) ∧
    (∀ m : List Char, m.map Char.toLower = ['s', 'u', 'b'] →
      parseAsm (m ++ ' ' :: regNames rd rs1 rs2) = some (.sub rd rs1 rs2))

/-! ### Reset, and what every step keeps -/

/-- The reset input, in one step and whatever the block was doing (10_state.md R39, 70_reset_and_hazards.md R96, R98):
the listed values, every register-file word unwritten, no commit. That the recorded fault is cleared with the rest is
DEDUCED (log entry 8). -/
def Obligations.ResetTurnGivesTheListedValues : Prop :=
  ∀ (s : State) (rest : List Turn), s.schedule = .reset :: rest →
    ∃ t, step s = .next t ∧ t.params = s.params ∧ t.schedule = rest ∧
      t.block.lastcmd = 0#32 ∧ t.block.busy = false ∧ t.block.done = false ∧ t.block.z = false ∧
      t.block.n = false ∧ t.block.busyerr = false ∧ t.block.err = 0#3 ∧ t.block.ie = false ∧
      t.block.irq = false ∧ t.block.fault = none ∧ t.block.Shape s.params ∧
      ∀ k < s.params.nreg, (t.block.reg s.params k).hdrWritten = false ∧
        ∀ i, (t.block.reg s.params k).limbWritten.getD i false = false

/-- The state after reset satisfies the machine invariant, for every legal build. -/
def Obligations.ResetSatisfiesTheInvariant : Prop :=
  State.reset.Inv ∧ ∀ p : Params, p.Legal → (State.resetWith p).Inv

/-- Every step keeps the machine invariant: a legal build, NREG registers of NLIMB limbs in `[0, DM]`, `ERR <= 4`, Z
and N never both 1, flags and DONE 0 while busy, and a recorded fault only beside `BUSY = 1`. -/
def Obligations.StepKeepsTheInvariant : Prop :=
  ∀ s t : State, s.Inv → step s = .next t → t.Inv

/-- `CFG` (10_state.md R23): read-only, the value of its four fields at all times, and constant under every step. -/
def Obligations.CfgIsConstantAndReadOnly : Prop :=
  (∀ s : State, s.params.Legal →
    s.ReadsAs 0x000 (BitVec.ofNat 32
      (0x01 * 2 ^ 24 + s.params.nlimb * 2 ^ 16 + s.params.nreg * 2 ^ 8 + s.params.db)) ∧
    ∀ w, s.WritesTo 0x000 w s.block) ∧
  (∀ s t : State, step s = .next t → t.params = s.params) ∧
  State.reset.ReadsAs 0x000 0x0180081A#32

/-! ### Values, the canonical form, the carry algorithm -/

/-- The value function of 10_state.md R18 and its consequences: the weighted sum, the empty encodings, the sign, the
virtual limb above the top, and that limbs at `i >= T` take no part. -/
def Obligations.ValueIsTheWeightedLimbSum : Prop :=
  (∀ (db : Nat) (e : BigEnc),
    e.val db = (∑ i ∈ Finset.range e.len, ((e.digits.getD i 0#32).toNat : Int) * 2 ^ (db * i)) +
      (if e.sign then -1 else 0) * 2 ^ (db * e.len) ∧
    (e.digits = [] → e.val db = if e.sign then -1 else 0) ∧
    (e.sign = false → 0 ≤ e.val db) ∧
    (e.sign = true → e.Digits db → -(2 ^ (db * e.len)) ≤ e.val db ∧ e.val db ≤ -1) ∧
    (db ≤ 32 →
      BigEnc.val db { sign := e.sign, digits := e.digits ++ [if e.sign then BitVec.ofNat 32 (2 ^ db - 1) else 0#32] } =
        e.val db)) ∧
  ∀ (db : Nat) (r r' : BigReg), r.sign = r'.sign → r.len = r'.len →
    r.len.toNat ≤ r.limbs.length → r.len.toNat ≤ r'.limbs.length →
    (∀ i < r.len.toNat, r.limbs.getD i 0#32 = r'.limbs.getD i 0#32) → r.val db = r'.val db

/-- `canon(v)` (40_addsub.md R66): its sign, its least length, its digits, and the three properties: it denotes `v`,
it is the only canonical encoding that does, and what it is for 0 and -1. -/
def Obligations.CanonIsTheUniqueCanonicalEncoding : Prop :=
  ∀ db : Nat, 1 ≤ db → db ≤ 32 →
    (∀ v : Int,
      (canon db v).val db = v ∧ (canon db v).Canonical db ∧ (canon db v).Digits db ∧
      ((canon db v).sign = true ↔ v < 0) ∧
      (∀ n : Nat, (canon db v).len ≤ n ↔ (0 ≤ v ∧ v < 2 ^ (db * n)) ∨ (v < 0 ∧ -(2 ^ (db * n)) ≤ v)) ∧
      (∀ i < (canon db v).len, (((canon db v).digits.getD i 0#32).toNat : Int) =
        (v - (if v < 0 then -1 else 0) * 2 ^ (db * (canon db v).len)) / 2 ^ (db * i) % 2 ^ db) ∧
      (∀ e : BigEnc, e.Digits db → e.Canonical db → e.val db = v → e = canon db v)) ∧
    canon db 0 = { sign := false, digits := [] } ∧ canon db (-1) = { sign := true, digits := [] }

/-- `clamp` (40_addsub.md R67): it drops leading limbs equal to the sign limb and no others, keeps the value, and
leaves an encoding unchanged exactly when its top limb is no sign limb; every committed result is canonical. -/
def Obligations.ClampDropsExactlyTheLeadingSignLimbs : Prop :=
  (∀ (db : Nat) (sign : Bool) (r : List Word), 1 ≤ db → db ≤ 32 →
    (clamp db sign r).val db = BigEnc.val db { sign := sign, digits := r } ∧
    (clamp db sign r).sign = sign ∧ (clamp db sign r).Canonical db ∧
    (∃ k, r = (clamp db sign r).digits ++ List.replicate k (if sign then BitVec.ofNat 32 (2 ^ db - 1) else 0#32))) ∧
  (∀ (db : Nat) (e : BigEnc), e.Canonical db ↔
    e.len = 0 ∨ e.digits.getD (e.len - 1) 0#32 ≠ (if e.sign then BitVec.ofNat 32 (2 ^ db - 1) else 0#32)) ∧
  ∀ (sub : Bool) (rd rs1 rs2 : Nat) (s : State), s.params.Legal → s.block.Shape s.params →
    s.block.Commits s.params sub rd rs1 rs2 →
    ∃ t, exec (addSubInstr sub rd rs1 rs2) s = .next t ∧ (t.block.reg s.params rd).enc.Canonical s.params.db

/-- The result length of 40_addsub.md R68: at most one limb more than the longer operand, so OVERFLOW is possible only
when an operand has NLIMB limbs; and the two ranges of the rule's proof. -/
def Obligations.ResultNeedsAtMostOneMoreLimb : Prop :=
  (∀ (db : Nat) (a b : BigEnc), 1 ≤ db → db ≤ 32 → a.Digits db → b.Digits db →
    let m := max a.len b.len
    (-(2 ^ (db * a.len)) ≤ a.val db ∧ a.val db ≤ 2 ^ (db * a.len) - 1) ∧
    (-(2 ^ (db * m + 1)) ≤ a.val db + b.val db ∧ a.val db + b.val db ≤ 2 ^ (db * m + 1) - 1) ∧
    (-(2 ^ (db * m + 1)) ≤ a.val db - b.val db ∧ a.val db - b.val db ≤ 2 ^ (db * m + 1) - 1) ∧
    (canon db (a.val db + b.val db)).len ≤ m + 1 ∧ (canon db (a.val db - b.val db)).len ≤ m + 1) ∧
  ∀ (sub : Bool) (rd rs1 rs2 : Nat) (s : State), s.params.Legal → s.block.Shape s.params → rd < s.params.nreg →
    s.block.OperandOk s.params rs1 → s.block.OperandOk s.params rs2 →
    ∃ t, exec (addSubInstr sub rd rs1 rs2) s = .next t ∧
      (t.block.err = 4#3 →
        max (s.block.reg s.params rs1).len.toNat (s.block.reg s.params rs2).len.toNat = s.params.nlimb)

/-- The limb-wise carry algorithm computes the canonical encoding of the exact sum and difference (40_addsub.md R69,
R70), for every pair of operands, canonical or not. -/
def Obligations.CarryAlgorithmMeetsTheExactLaw : Prop :=
  ∀ (db : Nat) (a b : BigEnc), 1 ≤ db → db ≤ 32 → a.Digits db → b.Digits db →
    addsub db false a b = canon db (a.val db + b.val db) ∧
    addsub db true a b = canon db (a.val db - b.val db)

/-- The bounds of the running value in the carry algorithm (40_addsub.md R71), each within a signed adder of `DB + 2`
bits. -/
def Obligations.CarryStaysInBounds : Prop :=
  ∀ (db : Nat) (a b : BigEnc), 1 ≤ db → db ≤ 32 → a.Digits db → b.Digits db →
    (∀ k : Nat,
      (let c := (carryLoop db false a b k).2
       (c = 0 ∨ c = 1) ∧ 0 ≤ c + limbTerm db false a b k ∧ c + limbTerm db false a b k ≤ 2 * (2 ^ db - 1) + 1) ∧
      (let c := (carryLoop db true a b k).2
       (c = -1 ∨ c = 0) ∧ -(2 ^ db - 1) - 1 ≤ c + limbTerm db true a b k ∧ c + limbTerm db true a b k ≤ 2 ^ db - 1)) ∧
    ∀ sub : Bool,
      -2 ≤ foldSigns sub a b (carryLoop db sub a b (max a.len b.len)).2 ∧
      foldSigns sub a b (carryLoop db sub a b (max a.len b.len)).2 ≤ 1 ∧
      (∀ k : Nat, -(2 ^ (db + 1)) ≤ (carryLoop db sub a b k).2 + limbTerm db sub a b k ∧
        (carryLoop db sub a b k).2 + limbTerm db sub a b k < 2 ^ (db + 1))

/-! ### ADD and SUB -/

/-- ADD completes (40_addsub.md R70, R72, R73, R75, R77) wherever its indices exist, its operands are legal (10_state.md
R21, canonical or not) and the canonical sum fits: the destination takes the exact sum, the flags are those of the
sum, and everything else stays. -/
def Obligations.AddCommitsTheExactSum : Prop :=
  ∀ (rd rs1 rs2 : Nat) (s : State), s.params.Legal → s.block.Shape s.params →
    s.block.Commits s.params false rd rs1 rs2 →
    ∃ t, exec (.add rd rs1 rs2) s = .next t ∧
      CommitOf s t rd ((s.block.reg s.params rs1).val s.params.db + (s.block.reg s.params rs2).val s.params.db) ∧
      (t.block.reg s.params rd).len.toNat ≤
        max (s.block.reg s.params rs1).len.toNat (s.block.reg s.params rs2).len.toNat + 1

/-- SUB completes likewise with the exact difference `rs1 - rs2` (40_addsub.md R70, R72, R73, R76, R77). -/
def Obligations.SubCommitsTheExactDifference : Prop :=
  ∀ (rd rs1 rs2 : Nat) (s : State), s.params.Legal → s.block.Shape s.params →
    s.block.Commits s.params true rd rs1 rs2 →
    ∃ t, exec (.sub rd rs1 rs2) s = .next t ∧
      CommitOf s t rd ((s.block.reg s.params rs1).val s.params.db - (s.block.reg s.params rs2).val s.params.db) ∧
      (t.block.reg s.params rd).len.toNat ≤
        max (s.block.reg s.params rs1).len.toNat (s.block.reg s.params rs2).len.toNat + 1

/-- The commit (40_addsub.md R73): every word of `rd` in one step, and a command that does not commit writes no
register. -/
def Obligations.CommitWritesEveryWordOfRd : Prop :=
  ∀ (sub : Bool) (rd rs1 rs2 : Nat) (s : State), s.params.Legal → s.block.Shape s.params →
    ∃ t, exec (addSubInstr sub rd rs1 rs2) s = .next t ∧
      (s.block.Commits s.params sub rd rs1 rs2 →
        let e := canon s.params.db (resultOf sub s.params s.block rs1 rs2)
        let r := t.block.reg s.params rd
        r.sign = e.sign ∧ r.len.toNat = e.len ∧
        (∀ i < e.len, r.limbs.getD i 0#32 = e.digits.getD i 0#32) ∧
        (∀ i, e.len ≤ i → i < s.params.nlimb → r.limbs.getD i 0#32 = 0#32) ∧
        r.hdrWritten = true ∧ (∀ i < s.params.nlimb, r.limbWritten.getD i false = true) ∧
        r.enc.Canonical s.params.db ∧ ∀ k, k ≠ rd → t.block.reg s.params k = s.block.reg s.params k) ∧
      (¬ s.block.Commits s.params sub rd rs1 rs2 → t.block.regs = s.block.regs)

/-- A completion, however it ends, leaves every register but `rd` and everything outside the register file and the
status fields unchanged; so every window word outside `rd`'s window and `STATUS` reads as before. -/
def Obligations.CompletionLeavesOtherWordsUnchanged : Prop :=
  ∀ (sub : Bool) (rd rs1 rs2 : Nat) (s t : State), exec (addSubInstr sub rd rs1 rs2) s = .next t →
    (∀ k, k ≠ rd → t.block.reg s.params k = s.block.reg s.params k) ∧
    t.block.regs.length = s.block.regs.length ∧ s.SameRest t ∧
    ∀ off : Nat, off ≠ 0x008 → (off < hdrOffset rd ∨ hdrOffset (rd + 1) ≤ off) →
      t.block.readTarget s.params (targetOf s.params off) = s.block.readTarget s.params (targetOf s.params off)

/-- Aliasing (40_addsub.md R74): whichever registers coincide, the result is that of the old values; and the three forms
that the rule lists. -/
def Obligations.AliasingUsesTheOldValues : Prop :=
  ∀ (r q : Nat) (s : State), s.params.Legal → s.block.Shape s.params →
    (∀ (sub : Bool) (rd rs1 rs2 : Nat), s.block.Commits s.params sub rd rs1 rs2 →
      ∃ t, exec (addSubInstr sub rd rs1 rs2) s = .next t ∧
        (t.block.reg s.params rd).val s.params.db = resultOf sub s.params s.block rs1 rs2) ∧
    (s.block.Commits s.params false r r r → ∃ t, exec (.add r r r) s = .next t ∧
      (t.block.reg s.params r).val s.params.db = 2 * (s.block.reg s.params r).val s.params.db) ∧
    (s.block.OperandOk s.params r → ∃ t, exec (.sub r r r) s = .next t ∧
      (t.block.reg s.params r).enc = { sign := false, digits := [] } ∧ t.block.z = true ∧ t.block.err = 0#3) ∧
    (s.block.Commits s.params true r q r → ∃ t, exec (.sub r q r) s = .next t ∧
      (t.block.reg s.params r).val s.params.db =
        (s.block.reg s.params q).val s.params.db - (s.block.reg s.params r).val s.params.db)

/-- The checks and their priority (60_exceptions.md R83) with the effect of each: an error completion (R82) or a
recorded model fault (R84). The first that applies decides. -/
def Obligations.ChecksReportTheFirstThatApplies : Prop :=
  (∀ s : State, s.Completes → (∃ e, decode s.block.lastcmd = .error e) →
    ∃ t, step s = .next t ∧ ErrorCompletion { s with schedule := s.schedule.tail } t .illegal) ∧
  ∀ (sub : Bool) (rd rs1 rs2 : Nat) (s : State),
    ∃ t, exec (addSubInstr sub rd rs1 rs2) s = .next t ∧
      let p := s.params
      let a := s.block.reg p rs1
      let c := s.block.reg p rs2
      (p.nreg ≤ rd ∨ p.nreg ≤ rs1 ∨ p.nreg ≤ rs2 → ErrorCompletion s t .badReg) ∧
      (rd < p.nreg → rs1 < p.nreg → rs2 < p.nreg →
        (a.hdrWritten = false ∨ c.hdrWritten = false → FaultRecorded s t) ∧
        (a.hdrWritten = true → c.hdrWritten = true →
          (p.nlimb < a.len.toNat ∨ p.nlimb < c.len.toNat → ErrorCompletion s t .badLen) ∧
          (a.len.toNat ≤ p.nlimb → c.len.toNat ≤ p.nlimb →
            ((∃ i < a.len.toNat, a.limbWritten.getD i false = false) ∨
              (∃ i < c.len.toNat, c.limbWritten.getD i false = false) → FaultRecorded s t) ∧
            ((∀ i < a.len.toNat, a.limbWritten.getD i false = true) →
              (∀ i < c.len.toNat, c.limbWritten.getD i false = true) →
              p.nlimb < (canon p.db (resultOf sub p s.block rs1 rs2)).len → ErrorCompletion s t .overflow))))

/-- Comparison by SUB (40_addsub.md R78): the flags order the operands; the only failure is OVERFLOW, with an operand of
NLIMB limbs; the comparison overwrites `rd`. -/
def Obligations.SubFlagsCompareTheOperands : Prop :=
  ∀ (rd rs1 rs2 : Nat) (s : State), s.params.Legal → s.block.Shape s.params → rd < s.params.nreg →
    s.block.OperandOk s.params rs1 → s.block.OperandOk s.params rs2 →
    ∃ t, exec (.sub rd rs1 rs2) s = .next t ∧
      let a := (s.block.reg s.params rs1).val s.params.db
      let b := (s.block.reg s.params rs2).val s.params.db
      (t.block.err = 0#3 →
        (t.block.n = true ↔ a < b) ∧ (t.block.z = true ↔ a = b) ∧
        (t.block.n = false ∧ t.block.z = false ↔ b < a) ∧
        (t.block.reg s.params rd).enc = canon s.params.db (a - b)) ∧
      (t.block.err ≠ 0#3 → t.block.err = 4#3 ∧
        max (s.block.reg s.params rs1).len.toNat (s.block.reg s.params rs2).len.toNat = s.params.nlimb)

/-- The pseudo-instructions of 30_encoding.md R63 and the two-command copy. -/
def Obligations.PseudoInstructionsHaveTheirEffects : Prop :=
  ∀ (rd rz rs : Nat) (s : State), s.params.Legal → s.block.Shape s.params →
    (s.block.Commits s.params false rd rs rs → ∃ t, exec (.dbl rd rs) s = .next t ∧
      (t.block.reg s.params rd).val s.params.db = 2 * (s.block.reg s.params rs).val s.params.db) ∧
    (rd < s.params.nreg → s.block.OperandOk s.params rs → ∃ t, exec (.zero rd rs) s = .next t ∧
      (t.block.reg s.params rd).sign = false ∧ (t.block.reg s.params rd).len = 0#9) ∧
    (s.block.Commits s.params true rd rz rs → (s.block.reg s.params rz).val s.params.db = 0 →
      ∃ t, exec (.neg rd rz rs) s = .next t ∧
        (t.block.reg s.params rd).val s.params.db = -(s.block.reg s.params rs).val s.params.db) ∧
    (rd < s.params.nreg → rz ≠ rs → s.block.OperandOk s.params rz → s.block.OperandOk s.params rs →
      ∃ t u, exec (.zero rz rz) s = .next t ∧ exec (.add rd rs rz) t = .next u ∧
        (u.block.reg s.params rd).val s.params.db = (s.block.reg s.params rs).val s.params.db ∧ u.block.err = 0#3)

/-- The arithmetic law (40_addsub.md R70): with legal operands, a command commits `canon` of the exact sum or
difference where that fits, and nothing with `ERR = OVERFLOW` where it does not; and the committed integer does not
depend on DB: two builds whose sources denote the same integers commit the same integer. -/
def Obligations.ArithmeticIsExactForEveryDigitWidth : Prop :=
  (∀ (sub : Bool) (rd rs1 rs2 : Nat) (s : State), s.params.Legal → s.block.Shape s.params → rd < s.params.nreg →
    s.block.OperandOk s.params rs1 → s.block.OperandOk s.params rs2 →
    let v := if sub then (s.block.reg s.params rs1).val s.params.db - (s.block.reg s.params rs2).val s.params.db
      else (s.block.reg s.params rs1).val s.params.db + (s.block.reg s.params rs2).val s.params.db
    ∃ t, exec (addSubInstr sub rd rs1 rs2) s = .next t ∧
      ((canon s.params.db v).len ≤ s.params.nlimb →
        (t.block.reg s.params rd).enc = canon s.params.db v ∧ t.block.err = 0#3) ∧
      (s.params.nlimb < (canon s.params.db v).len → t.block.regs = s.block.regs ∧ t.block.err = 4#3)) ∧
  ∀ (sub : Bool) (rd rs1 rs2 : Nat) (s s' : State),
    s.params.Legal → s.block.Shape s.params → s.block.Commits s.params sub rd rs1 rs2 →
    s'.params.Legal → s'.block.Shape s'.params → s'.block.Commits s'.params sub rd rs1 rs2 →
    (s.block.reg s.params rs1).val s.params.db = (s'.block.reg s'.params rs1).val s'.params.db →
    (s.block.reg s.params rs2).val s.params.db = (s'.block.reg s'.params rs2).val s'.params.db →
    ∃ t t', exec (addSubInstr sub rd rs1 rs2) s = .next t ∧ exec (addSubInstr sub rd rs1 rs2) s' = .next t' ∧
      (t.block.reg s.params rd).val s.params.db = (t'.block.reg s'.params rd).val s'.params.db

/-! ### The engine -/

/-- A step at the engine's turn runs the instruction that `LASTCMD` decodes to (40_addsub.md R72), once the turn is taken
from the schedule. The second clause is the model's form of the spec's fairness: with no turn left, the step that the
engine still has is taken (DEDUCED from 70_reset_and_hazards.md R104, R106; log entry 4). -/
def Obligations.StepRunsTheDecodedInstruction : Prop :=
  ∀ (s : State) (i : Instr), s.block.busy = true → s.block.fault = none → decode s.block.lastcmd = .ok i →
    (∀ rest, s.schedule = .engine :: rest → step s = exec i { s with schedule := rest }) ∧
    (s.schedule = [] → step s = exec i s)

/-- `withFetchWord` sets up an accepted command whose completion is the very next step (model's choice, log entry 9). -/
def Obligations.WithFetchWordRunsTheCommandNext : Prop :=
  ∀ (s : State) (i : Instr), i.WellFormed → step (s.withFetchWord 32 (encode i).toNat) =
    exec i { s with block := { s.block.accept (encode i) with fault := none } }

/-- An Illegal word (30_encoding.md R59): which words those are, and that its completion gives `ERR = ILLEGAL` and
writes no register. -/
def Obligations.IllegalWordsCompleteWithIllegal : Prop :=
  (∀ w : Word, (∃ e, decode w = .error e) ↔
    (w.toNat % 16 ≠ 0x1 ∧ w.toNat % 16 ≠ 0x2) ∨ w &&& 0xFFF888F0#32 ≠ 0#32) ∧
  (∀ w : Word, (∃ rd rs1 rs2, decode w = .ok (.add rd rs1 rs2)) ∨ (∃ rd rs1 rs2, decode w = .ok (.sub rd rs1 rs2)) ∨
    ∃ e, decode w = .error e) ∧
  ∀ s : State, s.Completes → (∃ e, decode s.block.lastcmd = .error e) →
    ∃ t, step s = .next t ∧ t.block.err = 1#3 ∧ t.block.regs = s.block.regs ∧ t.block.busy = false ∧ t.block.done = true

/-- After a recorded model fault (60_exceptions.md R84) nothing but reset moves the command, the registers or the
fault, and when no turn is left the machine stops: the state is never final. -/
def Obligations.RecordedFaultIsNeverLeft : Prop :=
  ∀ (s : State) (r : FaultReason), s.block.fault = some r → s.block.busy = true →
    (∀ t, step s = .next t → s.Resets ∨ (t.block.fault = some r ∧ t.block.busy = true ∧
      t.block.regs = s.block.regs ∧ t.block.lastcmd = s.block.lastcmd ∧ ¬ t.Final)) ∧
    (s.schedule = [] → step s = .fault (.recorded r))

/-- Weak fairness (70_reset_and_hazards.md R104) in the model's form (log entry 4): a command in flight with no model
fault ends within one step more than the turns that are scheduled, or its operands turn out unwritten. -/
def Obligations.CommandInFlightEnds : Prop :=
  ∀ s : State, s.block.busy = true → s.block.fault = none → (∀ u ∈ s.schedule, u.Legal s.params) →
    ∃ k t, k ≤ s.schedule.length + 1 ∧ Sys2Proof.core.run k s = .next t ∧
      (t.block.busy = false ∨ t.block.fault ≠ none)

/-- The end of a run (70_reset_and_hazards.md R106): from a final state with no reset scheduled, no number of steps
changes the block. -/
def Obligations.FinalStatesKeepTheBlock : Prop :=
  ∀ (k : Nat) (s : State), s.Final → (∀ u ∈ s.schedule, u ≠ .reset) →
    ∃ t : State, Sys2Proof.core.run k s = .next t ∧ t.block = s.block ∧ t.Final

/-! ### Host accesses -/

/-- `BusRead` (20_memory.md R45), offset by offset; a read changes no state of the block, busy or not. An unwritten
register-file word answers with a fresh draw (10_state.md R22). -/
def Obligations.BusReadReturnsTheTable : Prop :=
  ∀ s : State, s.params.Legal →
    s.ReadsAs 0x000 (BitVec.ofNat 32
      (0x01 * 2 ^ 24 + s.params.nlimb * 2 ^ 16 + s.params.nreg * 2 ^ 8 + s.params.db)) ∧
    s.ReadsAs 0x004 s.block.lastcmd ∧
    s.ReadsAs 0x008 (BitVec.ofNat 32 (s.block.busyerr.toNat * 2 ^ 8 + s.block.err.toNat * 2 ^ 4 +
      s.block.n.toNat * 2 ^ 3 + s.block.z.toNat * 2 ^ 2 + s.block.done.toNat * 2 + s.block.busy.toNat)) ∧
    s.ReadsAs 0x00C (BitVec.ofNat 32 s.block.ie.toNat) ∧
    (∀ k < s.params.nreg,
      ((s.block.reg s.params k).hdrWritten = true →
        s.ReadsAs (hdrOffset k) (BitVec.ofNat 32
          ((s.block.reg s.params k).sign.toNat * 2 ^ 31 + (s.block.reg s.params k).len.toNat))) ∧
      ((s.block.reg s.params k).hdrWritten = false → s.ReadsDraw (hdrOffset k) 0x800001FF#32) ∧
      ∀ i < s.params.nlimb,
        ((s.block.reg s.params k).limbWritten.getD i false = true →
          s.ReadsAs (limbOffset k i) ((s.block.reg s.params k).limbs.getD i 0#32)) ∧
        ((s.block.reg s.params k).limbWritten.getD i false = false →
          s.ReadsDraw (limbOffset k i) (BitVec.ofNat 32 (2 ^ s.params.db - 1)))) ∧
    ∀ off, RazWi s.params off → s.ReadsAs off 0#32

/-- `BusWrite` with `BUSY = 0` (20_memory.md R46), and acceptance of any command word (R47): each offset's effect, and
no other. -/
def Obligations.BusWriteWhenIdleFollowsTheTable : Prop :=
  ∀ (s : State) (w : Word), s.params.Legal → s.block.busy = false →
    s.WritesTo 0x000 w s.block ∧
    s.WritesTo 0x004 w
      { s.block with lastcmd := w, busy := true, done := false, err := 0#3, z := false, n := false } ∧
    s.WritesTo 0x008 w { s.block with
      done := if w.getLsbD 1 then false else s.block.done,
      busyerr := if w.getLsbD 8 then false else s.block.busyerr } ∧
    s.WritesTo 0x00C w { s.block with ie := w.getLsbD 0 } ∧
    (∀ k < s.params.nreg,
      let r := s.block.reg s.params k
      s.WritesTo (hdrOffset k) w (s.block.setReg k
        { r with sign := w.getLsbD 31, len := BitVec.ofNat 9 (w.toNat % 2 ^ 9), hdrWritten := true }) ∧
      ∀ i < s.params.nlimb,
        s.WritesTo (limbOffset k i) w (s.block.setReg k
          { r with
            limbs := r.limbs.set i (BitVec.ofNat 32 (w.toNat % 2 ^ s.params.db)),
            limbWritten := r.limbWritten.set i true })) ∧
    ∀ off, RazWi s.params off → s.WritesTo off w s.block

/-- `BusWrite` with `BUSY = 1` (20_memory.md R48): command and register-file writes are dropped and set BUSYERR, STATUS
and CTRL writes are performed, the rest is ignored. -/
def Obligations.BusWriteWhenBusyIsDropped : Prop :=
  ∀ (s : State) (w : Word), s.params.Legal → s.block.busy = true →
    s.WritesTo 0x004 w { s.block with busyerr := true } ∧
    (∀ k < s.params.nreg,
      s.WritesTo (hdrOffset k) w { s.block with busyerr := true } ∧
      ∀ i < s.params.nlimb, s.WritesTo (limbOffset k i) w { s.block with busyerr := true }) ∧
    s.WritesTo 0x008 w { s.block with
      done := if w.getLsbD 1 then false else s.block.done,
      busyerr := if w.getLsbD 8 then false else s.block.busyerr } ∧
    s.WritesTo 0x00C w { s.block with ie := w.getLsbD 0 } ∧
    s.WritesTo 0x000 w s.block ∧
    ∀ off, RazWi s.params off → s.WritesTo off w s.block

/-- `CTRL` (10_state.md R32): after a write, busy or not, IE is bit 0 of the word and the register reads as that bit
alone; its reset value is 0. -/
def Obligations.CtrlHoldsOnlyTheInterruptEnable : Prop :=
  (∀ (s : State) (w : Word), ∃ b, s.WritesTo 0x00C w b ∧ b = { s.block with ie := w.getLsbD 0 } ∧
    State.ReadsAs { s with block := b } 0x00C (BitVec.ofNat 32 (w.toNat % 2))) ∧
  ∀ p : Params, (State.resetWith p).ReadsAs 0x00C 0#32

/-- `HDR` (10_state.md R19): a write stores S and T and discards the reserved bits, whatever T is; a command that uses a
stored `T > NLIMB` as a source completes with `ERR = BAD_LEN`. -/
def Obligations.HeaderReadsBackWithoutReservedBits : Prop :=
  ∀ (s : State) (w : Word) (k : Nat), s.params.Legal → s.block.Shape s.params → s.block.busy = false →
    k < s.params.nreg →
    ∃ b, s.WritesTo (hdrOffset k) w b ∧
      State.ReadsAs { s with block := b } (hdrOffset k) (w &&& 0x800001FF#32) ∧
      ∀ (sub : Bool) (rd q : Nat), s.params.nlimb < w.toNat % 2 ^ 9 → rd < s.params.nreg → q < s.params.nreg →
        (b.reg s.params q).hdrWritten = true →
        ∃ t u, exec (addSubInstr sub rd k q) { s with block := b } = .next t ∧ t.block.err = 3#3 ∧
          exec (addSubInstr sub rd q k) { s with block := b } = .next u ∧ u.block.err = 3#3

/-- A limb word (10_state.md R20): a write keeps bits `DB-1:0`, so it reads back as the low DB bits, at most DM. -/
def Obligations.LimbReadsBackModuloTheDigitBase : Prop :=
  ∀ (s : State) (w : Word) (k i : Nat), s.params.Legal → s.block.Shape s.params → s.block.busy = false →
    k < s.params.nreg → i < s.params.nlimb →
    ∃ b, s.WritesTo (limbOffset k i) w b ∧
      State.ReadsAs { s with block := b } (limbOffset k i) (BitVec.ofNat 32 (w.toNat % 2 ^ s.params.db)) ∧
      ((b.reg s.params k).limbs.getD i 0#32).toNat ≤ 2 ^ s.params.db - 1 ∧
      ∀ j, j ≠ i → (b.reg s.params k).limbs.getD j 0#32 = (s.block.reg s.params k).limbs.getD j 0#32

/-- An access to the window of another width than 32 bits, or at an offset that is no multiple of 4, is refused
(20_memory.md R44). -/
def Obligations.IllegalAccessesAreRefused : Prop :=
  ∀ (s : State) (a : Access) (rest : List Turn), s.schedule = .host a :: rest → InWindow s.params a.addr →
    (a.width ≠ .w32 ∨ (a.addr - s.params.base) % 4 ≠ 0 ↔
      step s = .refused .accessWidth ∨ step s = .refused .misaligned)

/-- An access outside `BASE` to `BASE + 0x3FFF` (20_memory.md R40) is no access to the block; that the model stops there
is its own choice (log entry 10). -/
def Obligations.AccessOutsideTheWindowFaults : Prop :=
  ∀ (s : State) (a : Access) (rest : List Turn), s.schedule = .host a :: rest →
    (a.addr < s.params.base ∨ s.params.base + 0x4000 ≤ a.addr ↔ step s = .fault .outsideWindow)

/-- Repeated accesses (20_memory.md R49): writes to HDR, limbs and CTRL are idempotent; a repeated command write with
`BUSY = 1` only sets BUSYERR; a repeated command write with `BUSY = 0` starts the same command again. -/
def Obligations.RepeatedWritesAddNothing : Prop :=
  ∀ (s : State) (w : Word), s.params.Legal →
    (∃ b, s.WritesTo 0x00C w b ∧ State.WritesTo { s with block := b } 0x00C w b) ∧
    (∀ k < s.params.nreg,
      (∃ b, s.WritesTo (hdrOffset k) w b ∧ State.WritesTo { s with block := b } (hdrOffset k) w b) ∧
      ∀ i < s.params.nlimb,
        ∃ b, s.WritesTo (limbOffset k i) w b ∧ State.WritesTo { s with block := b } (limbOffset k i) w b) ∧
    (s.block.busy = true → s.WritesTo 0x004 w { s.block with busyerr := true } ∧
      State.WritesTo { s with block := { s.block with busyerr := true } } 0x004 w { s.block with busyerr := true }) ∧
    (s.block.busy = false → s.block.lastcmd = w → ∃ b, s.WritesTo 0x004 w b ∧ b.busy = true ∧ b.lastcmd = w)

/-- Operands are read at completion and equal those at acceptance (70_reset_and_hazards.md R102, 10_state.md R35): legal
host accesses while busy change nothing that the completion reads or writes. -/
def Obligations.AccessesWhileBusyDoNotChangeTheResult : Prop :=
  ∀ (s : State) (accesses : List Access) (rest : List Turn), s.Inv → s.block.busy = true → s.block.fault = none →
    (∀ a ∈ accesses, a.Legal s.params) →
    ∃ t t' : State, step { s with schedule := .engine :: rest } = .next t ∧
      Sys2Proof.core.run (accesses.length + 1) { s with schedule := accesses.map Turn.host ++ .engine :: rest } =
        .next t' ∧
      t'.schedule = rest ∧ t'.block = { t.block with busyerr := t'.block.busyerr, ie := t'.block.ie }

/-! ### Rules about the whole machine -/

/-- `STATUS.BUSY` (10_state.md R26): acceptance sets it, the completion step clears it, and nothing else changes it but
reset. A completion that records a model fault is no completion step (R22). -/
def Obligations.BusyChangesOnlyByAcceptanceAndCompletion : Prop :=
  ∀ s t : State, step s = .next t →
    (∀ w, s.Accepts w → t.block.busy = true) ∧
    (s.Completes → t.block.fault = none → t.block.busy = false) ∧
    (s.Resets → t.block.busy = false) ∧
    (s.block.busy = false → t.block.busy = true → ∃ w, s.Accepts w) ∧
    (s.block.busy = true → t.block.busy = false → s.Completes ∨ s.Resets)

/-- `STATUS.DONE` (10_state.md R27) and the interrupt it drives: every completion sets it; acceptance and a host write
of 1 to bit 1 clear it, and nothing else but reset. -/
def Obligations.DoneIsSetByCompletionsOnly : Prop :=
  ∀ s t : State, step s = .next t →
    (s.Completes → t.block.fault = none → t.block.done = true) ∧
    (s.block.done = false → t.block.done = true → s.Completes) ∧
    (∀ w, s.Accepts w → t.block.done = false) ∧
    (∀ w, s.HostWrites 0x008 w → w.getLsbD 1 = true → t.block.done = false) ∧
    (s.block.done = true → t.block.done = false →
      (∃ w, s.Accepts w) ∨ (∃ w, s.HostWrites 0x008 w ∧ w.getLsbD 1 = true) ∨ s.Resets) ∧
    (t.block.done = true → t.block.ie = true → t.block.irq = true)

/-- `STATUS.Z` and `STATUS.N` (10_state.md R28, R29): those of the committed result after a successful completion, 0
after an error completion and after acceptance, unchanged otherwise; N is the committed sign, and they are never both
1. -/
def Obligations.FlagsAreThoseOfTheLastCompletion : Prop :=
  ∀ s t : State, s.Inv → step s = .next t →
    (∀ (sub : Bool) (rd rs1 rs2 : Nat), s.Completes → decode s.block.lastcmd = .ok (addSubInstr sub rd rs1 rs2) →
      s.block.Commits s.params sub rd rs1 rs2 →
      (t.block.z = true ↔ resultOf sub s.params s.block rs1 rs2 = 0) ∧
      (t.block.n = true ↔ resultOf sub s.params s.block rs1 rs2 < 0) ∧
      t.block.n = (t.block.reg s.params rd).sign) ∧
    (s.Completes → t.block.fault = none → t.block.err ≠ 0#3 → t.block.z = false ∧ t.block.n = false) ∧
    (∀ w, s.Accepts w → t.block.z = false ∧ t.block.n = false) ∧
    (¬ s.Completes → (∀ w, ¬ s.Accepts w) → ¬ s.Resets → t.block.z = s.block.z ∧ t.block.n = s.block.n) ∧
    ¬ (t.block.z = true ∧ t.block.n = true)

/-- `STATUS.ERR` (10_state.md R30): 0 after a successful completion, 1 to 4 after a failed one, cleared by acceptance,
unchanged otherwise, never 5 to 7. -/
def Obligations.ErrHoldsTheCodeOfTheLastCompletion : Prop :=
  ∀ s t : State, s.Inv → step s = .next t →
    (∀ (sub : Bool) (rd rs1 rs2 : Nat), s.Completes → decode s.block.lastcmd = .ok (addSubInstr sub rd rs1 rs2) →
      t.block.fault = none → (t.block.err = 0#3 ↔ s.block.Commits s.params sub rd rs1 rs2)) ∧
    (s.Completes → (∃ e, decode s.block.lastcmd = .error e) → t.block.err = 1#3) ∧
    (∀ w, s.Accepts w → t.block.err = 0#3) ∧
    (¬ s.Completes → (∀ w, ¬ s.Accepts w) → ¬ s.Resets → t.block.err = s.block.err) ∧
    t.block.err.toNat ≤ 4

/-- `STATUS.BUSYERR` (10_state.md R31): set exactly by a dropped write, cleared only by a host write of 1 to bit 8 of
STATUS or by reset. -/
def Obligations.BusyErrIsStickyUntilCleared : Prop :=
  ∀ s t : State, s.params.Legal → step s = .next t →
    (∀ (off : Nat) (w : Word), s.HostWrites off w → s.block.busy = true →
      (off = 0x004 ∨ (∃ k < s.params.nreg, off = hdrOffset k ∨ ∃ i < s.params.nlimb, off = limbOffset k i)) →
      t.block.busyerr = true) ∧
    (s.block.busyerr = false → t.block.busyerr = true → s.block.busy = true ∧
      ∃ off w, s.HostWrites off w ∧
        (off = 0x004 ∨ ∃ k < s.params.nreg, off = hdrOffset k ∨ ∃ i < s.params.nlimb, off = limbOffset k i)) ∧
    (s.block.busyerr = true → t.block.busyerr = false →
      (∃ w, s.HostWrites 0x008 w ∧ w.getLsbD 8 = true) ∨ s.Resets) ∧
    (∀ w, s.HostWrites 0x008 w → w.getLsbD 8 = true → t.block.busyerr = false)

/-- `CMD` (10_state.md R24): acceptance sets LASTCMD and starts the command; completions and dropped writes leave it; it
reads back; reset makes it 0. -/
def Obligations.LastcmdIsTheLastAcceptedWord : Prop :=
  (∀ s t : State, step s = .next t →
    (∀ w, s.Accepts w → t.block.lastcmd = w ∧ t.block.busy = true) ∧
    ((∀ w, ¬ s.Accepts w) → ¬ s.Resets → t.block.lastcmd = s.block.lastcmd) ∧
    (s.Resets → t.block.lastcmd = 0#32)) ∧
  (∀ s : State, s.ReadsAs 0x004 s.block.lastcmd) ∧
  ∀ p : Params, (State.resetWith p).block.lastcmd = 0#32

/-- The interrupt output (10_state.md R33, 60_exceptions.md R86): it rises only by a completion or by enabling it with
DONE set, and falls only by clearing DONE, by acceptance, by disabling it, or by reset. -/
def Obligations.IrqRisesAndFallsOnlyWithItsFields : Prop :=
  ∀ s t : State, step s = .next t →
    (t.block.irq = true ↔ t.block.ie = true ∧ t.block.done = true) ∧
    (s.block.irq = false → t.block.irq = true →
      s.Completes ∨ ∃ w, s.HostWrites 0x00C w ∧ w.getLsbD 0 = true ∧ s.block.done = true) ∧
    (s.block.irq = true → t.block.irq = false →
      (∃ w, s.Accepts w) ∨ (∃ w, s.HostWrites 0x008 w ∧ w.getLsbD 1 = true) ∨
      (∃ w, s.HostWrites 0x00C w ∧ w.getLsbD 0 = false) ∨ s.Resets)

/-- Only these events change a BigInt register: a completion of a command with that destination, a host write to one of
its mapped words while not busy, and reset. -/
def Obligations.OnlyTheseEventsChangeARegister : Prop :=
  ∀ (s t : State) (k : Nat), s.params.Legal → step s = .next t →
    t.block.reg s.params k ≠ s.block.reg s.params k →
    s.Resets ∨
    (s.Completes ∧ ∃ sub rs1 rs2, decode s.block.lastcmd = .ok (addSubInstr sub k rs1 rs2)) ∨
    (s.block.busy = false ∧ k < s.params.nreg ∧
      ∃ off w, s.HostWrites off w ∧ (off = hdrOffset k ∨ ∃ i < s.params.nlimb, off = limbOffset k i))

/-- A host that polls STATUS while a command is in flight reads BUSY alone, or BUSY and BUSYERR: the flags, ERR and DONE
read 0 (70_reset_and_hazards.md R100). -/
def Obligations.StatusReadsBusyAloneWhileInFlight : Prop :=
  ∀ s : State, s.Inv → s.block.busy = true →
    s.ReadsAs 0x008 (if s.block.busyerr then 0x101#32 else 0x001#32)

/-- What an unwritten word holds cannot be observed (10_state.md R22, 70_reset_and_hazards.md R97): two states that
differ only there take steps that differ only there. So the contents that the model gives a register at reset (log
entry 5) decide nothing. -/
def Obligations.UnwrittenContentsAreUnobservable : Prop :=
  ∀ s s' : State, s.Inv → s'.Inv → s.AgreeOnWritten s' → OutcomesAgree (step s) (step s')
end

