-- ==== Sys2Proof/Laws/State.lean ====
section
/-! SUPPORT. One lemma per field per update of the state records, each true by unfolding, so that no later proof
unfolds a record update. -/

namespace Sys2Proof.Machine

section setReg

@[simp] theorem Block.setReg_regs (b : Block) (k : Nat) (r : BigReg) : (b.setReg k r).regs = b.regs.set k r := rfl
@[simp] theorem Block.setReg_lastcmd (b : Block) (k : Nat) (r : BigReg) : (b.setReg k r).lastcmd = b.lastcmd := rfl
@[simp] theorem Block.setReg_busy (b : Block) (k : Nat) (r : BigReg) : (b.setReg k r).busy = b.busy := rfl
@[simp] theorem Block.setReg_done (b : Block) (k : Nat) (r : BigReg) : (b.setReg k r).done = b.done := rfl
@[simp] theorem Block.setReg_z (b : Block) (k : Nat) (r : BigReg) : (b.setReg k r).z = b.z := rfl
@[simp] theorem Block.setReg_n (b : Block) (k : Nat) (r : BigReg) : (b.setReg k r).n = b.n := rfl
@[simp] theorem Block.setReg_busyerr (b : Block) (k : Nat) (r : BigReg) : (b.setReg k r).busyerr = b.busyerr := rfl
@[simp] theorem Block.setReg_ie (b : Block) (k : Nat) (r : BigReg) : (b.setReg k r).ie = b.ie := rfl
@[simp] theorem Block.setReg_err (b : Block) (k : Nat) (r : BigReg) : (b.setReg k r).err = b.err := rfl
@[simp] theorem Block.setReg_fault (b : Block) (k : Nat) (r : BigReg) : (b.setReg k r).fault = b.fault := rfl

end setReg

section accept

@[simp] theorem Block.accept_regs (b : Block) (w : Word) : (b.accept w).regs = b.regs := rfl
@[simp] theorem Block.accept_lastcmd (b : Block) (w : Word) : (b.accept w).lastcmd = w := rfl
@[simp] theorem Block.accept_busy (b : Block) (w : Word) : (b.accept w).busy = true := rfl
@[simp] theorem Block.accept_done (b : Block) (w : Word) : (b.accept w).done = false := rfl
@[simp] theorem Block.accept_z (b : Block) (w : Word) : (b.accept w).z = false := rfl
@[simp] theorem Block.accept_n (b : Block) (w : Word) : (b.accept w).n = false := rfl
@[simp] theorem Block.accept_busyerr (b : Block) (w : Word) : (b.accept w).busyerr = b.busyerr := rfl
@[simp] theorem Block.accept_ie (b : Block) (w : Word) : (b.accept w).ie = b.ie := rfl
@[simp] theorem Block.accept_err (b : Block) (w : Word) : (b.accept w).err = 0#3 := rfl
@[simp] theorem Block.accept_fault (b : Block) (w : Word) : (b.accept w).fault = b.fault := rfl

end accept

section finishErr

@[simp] theorem Block.finishErr_regs (b : Block) (c : ErrCode) : (b.finishErr c).regs = b.regs := rfl
@[simp] theorem Block.finishErr_lastcmd (b : Block) (c : ErrCode) : (b.finishErr c).lastcmd = b.lastcmd := rfl
@[simp] theorem Block.finishErr_busy (b : Block) (c : ErrCode) : (b.finishErr c).busy = false := rfl
@[simp] theorem Block.finishErr_done (b : Block) (c : ErrCode) : (b.finishErr c).done = true := rfl
@[simp] theorem Block.finishErr_z (b : Block) (c : ErrCode) : (b.finishErr c).z = false := rfl
@[simp] theorem Block.finishErr_n (b : Block) (c : ErrCode) : (b.finishErr c).n = false := rfl
@[simp] theorem Block.finishErr_busyerr (b : Block) (c : ErrCode) : (b.finishErr c).busyerr = b.busyerr := rfl
@[simp] theorem Block.finishErr_ie (b : Block) (c : ErrCode) : (b.finishErr c).ie = b.ie := rfl
@[simp] theorem Block.finishErr_err (b : Block) (c : ErrCode) : (b.finishErr c).err = c.code := rfl
@[simp] theorem Block.finishErr_fault (b : Block) (c : ErrCode) : (b.finishErr c).fault = b.fault := rfl

end finishErr

section recordFault

@[simp] theorem Block.recordFault_regs (b : Block) (r : FaultReason) : (b.recordFault r).regs = b.regs := rfl
@[simp] theorem Block.recordFault_lastcmd (b : Block) (r : FaultReason) : (b.recordFault r).lastcmd = b.lastcmd := rfl
@[simp] theorem Block.recordFault_busy (b : Block) (r : FaultReason) : (b.recordFault r).busy = b.busy := rfl
@[simp] theorem Block.recordFault_done (b : Block) (r : FaultReason) : (b.recordFault r).done = b.done := rfl
@[simp] theorem Block.recordFault_z (b : Block) (r : FaultReason) : (b.recordFault r).z = b.z := rfl
@[simp] theorem Block.recordFault_n (b : Block) (r : FaultReason) : (b.recordFault r).n = b.n := rfl
@[simp] theorem Block.recordFault_busyerr (b : Block) (r : FaultReason) : (b.recordFault r).busyerr = b.busyerr := rfl
@[simp] theorem Block.recordFault_ie (b : Block) (r : FaultReason) : (b.recordFault r).ie = b.ie := rfl
@[simp] theorem Block.recordFault_err (b : Block) (r : FaultReason) : (b.recordFault r).err = b.err := rfl
@[simp] theorem Block.recordFault_fault (b : Block) (r : FaultReason) : (b.recordFault r).fault = some r := rfl

end recordFault

section finishOk

@[simp] theorem Block.finishOk_regs (p : Params) (b : Block) (rd : Nat) (v : Int) : (b.finishOk p rd v).regs = b.regs.set rd (BigReg.committed p (canon p.db v)) := rfl
@[simp] theorem Block.finishOk_lastcmd (p : Params) (b : Block) (rd : Nat) (v : Int) : (b.finishOk p rd v).lastcmd = b.lastcmd := rfl
@[simp] theorem Block.finishOk_busy (p : Params) (b : Block) (rd : Nat) (v : Int) : (b.finishOk p rd v).busy = false := rfl
@[simp] theorem Block.finishOk_done (p : Params) (b : Block) (rd : Nat) (v : Int) : (b.finishOk p rd v).done = true := rfl
@[simp] theorem Block.finishOk_z (p : Params) (b : Block) (rd : Nat) (v : Int) : (b.finishOk p rd v).z = zFlag v := rfl
@[simp] theorem Block.finishOk_n (p : Params) (b : Block) (rd : Nat) (v : Int) : (b.finishOk p rd v).n = nFlag v := rfl
@[simp] theorem Block.finishOk_busyerr (p : Params) (b : Block) (rd : Nat) (v : Int) : (b.finishOk p rd v).busyerr = b.busyerr := rfl
@[simp] theorem Block.finishOk_ie (p : Params) (b : Block) (rd : Nat) (v : Int) : (b.finishOk p rd v).ie = b.ie := rfl
@[simp] theorem Block.finishOk_err (p : Params) (b : Block) (rd : Nat) (v : Int) : (b.finishOk p rd v).err = 0#3 := rfl
@[simp] theorem Block.finishOk_fault (p : Params) (b : Block) (rd : Nat) (v : Int) : (b.finishOk p rd v).fault = b.fault := rfl

end finishOk

section dropWrite

@[simp] theorem Block.dropWrite_regs (b : Block) : (b.dropWrite).regs = b.regs := rfl
@[simp] theorem Block.dropWrite_lastcmd (b : Block) : (b.dropWrite).lastcmd = b.lastcmd := rfl
@[simp] theorem Block.dropWrite_busy (b : Block) : (b.dropWrite).busy = b.busy := rfl
@[simp] theorem Block.dropWrite_done (b : Block) : (b.dropWrite).done = b.done := rfl
@[simp] theorem Block.dropWrite_z (b : Block) : (b.dropWrite).z = b.z := rfl
@[simp] theorem Block.dropWrite_n (b : Block) : (b.dropWrite).n = b.n := rfl
@[simp] theorem Block.dropWrite_busyerr (b : Block) : (b.dropWrite).busyerr = true := rfl
@[simp] theorem Block.dropWrite_ie (b : Block) : (b.dropWrite).ie = b.ie := rfl
@[simp] theorem Block.dropWrite_err (b : Block) : (b.dropWrite).err = b.err := rfl
@[simp] theorem Block.dropWrite_fault (b : Block) : (b.dropWrite).fault = b.fault := rfl

end dropWrite

section clearStatus

@[simp] theorem Block.clearStatus_regs (b : Block) (w : Word) : (b.clearStatus w).regs = b.regs := rfl
@[simp] theorem Block.clearStatus_lastcmd (b : Block) (w : Word) : (b.clearStatus w).lastcmd = b.lastcmd := rfl
@[simp] theorem Block.clearStatus_busy (b : Block) (w : Word) : (b.clearStatus w).busy = b.busy := rfl
@[simp] theorem Block.clearStatus_done (b : Block) (w : Word) : (b.clearStatus w).done = (b.done && !w.getLsbD 1) := rfl
@[simp] theorem Block.clearStatus_z (b : Block) (w : Word) : (b.clearStatus w).z = b.z := rfl
@[simp] theorem Block.clearStatus_n (b : Block) (w : Word) : (b.clearStatus w).n = b.n := rfl
@[simp] theorem Block.clearStatus_busyerr (b : Block) (w : Word) : (b.clearStatus w).busyerr = (b.busyerr && !w.getLsbD 8) := rfl
@[simp] theorem Block.clearStatus_ie (b : Block) (w : Word) : (b.clearStatus w).ie = b.ie := rfl
@[simp] theorem Block.clearStatus_err (b : Block) (w : Word) : (b.clearStatus w).err = b.err := rfl
@[simp] theorem Block.clearStatus_fault (b : Block) (w : Word) : (b.clearStatus w).fault = b.fault := rfl

end clearStatus

section afterReset

@[simp] theorem Block.afterReset_regs (p : Params) : (Block.afterReset p).regs = List.replicate p.nreg (BigReg.afterReset p) := rfl
@[simp] theorem Block.afterReset_lastcmd (p : Params) : (Block.afterReset p).lastcmd = 0#32 := rfl
@[simp] theorem Block.afterReset_busy (p : Params) : (Block.afterReset p).busy = false := rfl
@[simp] theorem Block.afterReset_done (p : Params) : (Block.afterReset p).done = false := rfl
@[simp] theorem Block.afterReset_z (p : Params) : (Block.afterReset p).z = false := rfl
@[simp] theorem Block.afterReset_n (p : Params) : (Block.afterReset p).n = false := rfl
@[simp] theorem Block.afterReset_busyerr (p : Params) : (Block.afterReset p).busyerr = false := rfl
@[simp] theorem Block.afterReset_ie (p : Params) : (Block.afterReset p).ie = false := rfl
@[simp] theorem Block.afterReset_err (p : Params) : (Block.afterReset p).err = 0#3 := rfl
@[simp] theorem Block.afterReset_fault (p : Params) : (Block.afterReset p).fault = none := rfl

end afterReset

section storeHdr

@[simp] theorem BigReg.storeHdr_sign (r : BigReg) (w : Word) : (r.storeHdr w).sign = w.getLsbD 31 := rfl
@[simp] theorem BigReg.storeHdr_len (r : BigReg) (w : Word) : (r.storeHdr w).len = w.setWidth 9 := rfl
@[simp] theorem BigReg.storeHdr_limbs (r : BigReg) (w : Word) : (r.storeHdr w).limbs = r.limbs := rfl
@[simp] theorem BigReg.storeHdr_hdrWritten (r : BigReg) (w : Word) : (r.storeHdr w).hdrWritten = true := rfl
@[simp] theorem BigReg.storeHdr_limbWritten (r : BigReg) (w : Word) : (r.storeHdr w).limbWritten = r.limbWritten := rfl

end storeHdr

section storeLimb

@[simp] theorem BigReg.storeLimb_sign (p : Params) (r : BigReg) (i : Nat) (w : Word) : (r.storeLimb p i w).sign = r.sign := rfl
@[simp] theorem BigReg.storeLimb_len (p : Params) (r : BigReg) (i : Nat) (w : Word) : (r.storeLimb p i w).len = r.len := rfl
@[simp] theorem BigReg.storeLimb_limbs (p : Params) (r : BigReg) (i : Nat) (w : Word) : (r.storeLimb p i w).limbs = r.limbs.set i (w &&& digitMask p) := rfl
@[simp] theorem BigReg.storeLimb_hdrWritten (p : Params) (r : BigReg) (i : Nat) (w : Word) : (r.storeLimb p i w).hdrWritten = r.hdrWritten := rfl
@[simp] theorem BigReg.storeLimb_limbWritten (p : Params) (r : BigReg) (i : Nat) (w : Word) : (r.storeLimb p i w).limbWritten = r.limbWritten.set i true := rfl

end storeLimb

section committed

@[simp] theorem BigReg.committed_sign (p : Params) (e : BigEnc) : (BigReg.committed p e).sign = e.sign := rfl
@[simp] theorem BigReg.committed_len (p : Params) (e : BigEnc) : (BigReg.committed p e).len = BitVec.ofNat 9 e.len := rfl
@[simp] theorem BigReg.committed_limbs (p : Params) (e : BigEnc) : (BigReg.committed p e).limbs = e.digits ++ List.replicate (p.nlimb - e.len) 0#32 := rfl
@[simp] theorem BigReg.committed_hdrWritten (p : Params) (e : BigEnc) : (BigReg.committed p e).hdrWritten = true := rfl
@[simp] theorem BigReg.committed_limbWritten (p : Params) (e : BigEnc) : (BigReg.committed p e).limbWritten = List.replicate p.nlimb true := rfl

end committed

section afterReset

@[simp] theorem BigReg.afterReset_sign (p : Params) : (BigReg.afterReset p).sign = false := rfl
@[simp] theorem BigReg.afterReset_len (p : Params) : (BigReg.afterReset p).len = 0#9 := rfl
@[simp] theorem BigReg.afterReset_limbs (p : Params) : (BigReg.afterReset p).limbs = List.replicate p.nlimb 0#32 := rfl
@[simp] theorem BigReg.afterReset_hdrWritten (p : Params) : (BigReg.afterReset p).hdrWritten = false := rfl
@[simp] theorem BigReg.afterReset_limbWritten (p : Params) : (BigReg.afterReset p).limbWritten = List.replicate p.nlimb false := rfl

end afterReset

section completeAddSub

@[simp] theorem completeAddSub_params (sub : Bool) (rd rs1 rs2 : Nat) (s : State) : (completeAddSub sub rd rs1 rs2 s).params = s.params := rfl
@[simp] theorem completeAddSub_block (sub : Bool) (rd rs1 rs2 : Nat) (s : State) : (completeAddSub sub rd rs1 rs2 s).block = s.block.conclude s.params rd (s.block.judge s.params sub rd rs1 rs2) := rfl
@[simp] theorem completeAddSub_schedule (sub : Bool) (rd rs1 rs2 : Nat) (s : State) : (completeAddSub sub rd rs1 rs2 s).schedule = s.schedule := rfl
@[simp] theorem completeAddSub_readData (sub : Bool) (rd rs1 rs2 : Nat) (s : State) : (completeAddSub sub rd rs1 rs2 s).readData = s.readData := rfl
@[simp] theorem completeAddSub_draws (sub : Bool) (rd rs1 rs2 : Nat) (s : State) : (completeAddSub sub rd rs1 rs2 s).draws = s.draws := rfl

end completeAddSub

section completeIllegal

@[simp] theorem completeIllegal_params (s : State) : (completeIllegal s).params = s.params := rfl
@[simp] theorem completeIllegal_block (s : State) : (completeIllegal s).block = s.block.finishErr .illegal := rfl
@[simp] theorem completeIllegal_schedule (s : State) : (completeIllegal s).schedule = s.schedule := rfl
@[simp] theorem completeIllegal_readData (s : State) : (completeIllegal s).readData = s.readData := rfl
@[simp] theorem completeIllegal_draws (s : State) : (completeIllegal s).draws = s.draws := rfl

end completeIllegal

section resetTurn

@[simp] theorem resetTurn_params (s : State) : (resetTurn s).params = s.params := rfl
@[simp] theorem resetTurn_block (s : State) : (resetTurn s).block = Block.afterReset s.params := rfl
@[simp] theorem resetTurn_schedule (s : State) : (resetTurn s).schedule = s.schedule := rfl
@[simp] theorem resetTurn_readData (s : State) : (resetTurn s).readData = s.readData := rfl
@[simp] theorem resetTurn_draws (s : State) : (resetTurn s).draws = s.draws := rfl

end resetTurn

section hostWrite

@[simp] theorem hostWrite_params (t : Target) (w : Word) (s : State) : (hostWrite t w s).params = s.params := rfl
@[simp] theorem hostWrite_block (t : Target) (w : Word) (s : State) : (hostWrite t w s).block = s.block.writeTarget s.params w t := rfl
@[simp] theorem hostWrite_schedule (t : Target) (w : Word) (s : State) : (hostWrite t w s).schedule = s.schedule := rfl
@[simp] theorem hostWrite_readData (t : Target) (w : Word) (s : State) : (hostWrite t w s).readData = s.readData := rfl
@[simp] theorem hostWrite_draws (t : Target) (w : Word) (s : State) : (hostWrite t w s).draws = s.draws := rfl

end hostWrite

section State.resetWith

@[simp] theorem State.resetWith_params (p : Params) : (State.resetWith p).params = p := rfl
@[simp] theorem State.resetWith_block (p : Params) : (State.resetWith p).block = Block.afterReset p := rfl
@[simp] theorem State.resetWith_schedule (p : Params) : (State.resetWith p).schedule = [] := rfl
@[simp] theorem State.resetWith_readData (p : Params) : (State.resetWith p).readData = none := rfl
@[simp] theorem State.resetWith_draws (p : Params) : (State.resetWith p).draws = 0 := rfl

end State.resetWith

section State.withFetchWord

@[simp] theorem State.withFetchWord_params (s : State) (nbits w : Nat) : (s.withFetchWord nbits w).params = s.params := rfl
@[simp] theorem State.withFetchWord_block (s : State) (nbits w : Nat) : (s.withFetchWord nbits w).block = { s.block.accept (BitVec.ofNat 32 (w % 2 ^ nbits)) with fault := none } := rfl
@[simp] theorem State.withFetchWord_schedule (s : State) (nbits w : Nat) : (s.withFetchWord nbits w).schedule = .engine :: s.schedule := rfl
@[simp] theorem State.withFetchWord_readData (s : State) (nbits w : Nat) : (s.withFetchWord nbits w).readData = s.readData := rfl
@[simp] theorem State.withFetchWord_draws (s : State) (nbits w : Nat) : (s.withFetchWord nbits w).draws = s.draws := rfl

end State.withFetchWord

section conclude

@[simp] theorem Block.conclude_error (p : Params) (b : Block) (rd : Nat) (c : ErrCode) :
    b.conclude p rd (.error c) = b.finishErr c := rfl
@[simp] theorem Block.conclude_fault (p : Params) (b : Block) (rd : Nat) (r : FaultReason) :
    b.conclude p rd (.fault r) = b.recordFault r := rfl
@[simp] theorem Block.conclude_commit (p : Params) (b : Block) (rd : Nat) (v : Int) :
    b.conclude p rd (.commit v) = b.finishOk p rd v := rfl

end conclude

end Sys2Proof.Machine
end

