-- ==== Sys2Proof/Laws/Values.lean ====
section
/-! SUPPORT. What the shared functions on encodings do: the least length, the digits, the sign limb, clamp. -/

namespace Sys2Proof.Machine

/-- `leastFrom` answers the least place that passes, if one within its fuel does. -/
theorem leastFrom_spec (f : Nat → Bool) (fuel n m : Nat) (hn : n ≤ m) (hm : m < n + fuel) (hf : f m = true) :
    f (leastFrom f fuel n) = true ∧ n ≤ leastFrom f fuel n ∧ ∀ k, n ≤ k → k < leastFrom f fuel n → f k = false := by
  induction fuel generalizing n with
  | zero => omega
  | succ fuel ih =>
    simp only [leastFrom]
    split
    · rename_i h
      exact ⟨h, le_refl n, fun k h1 h2 => by omega⟩
    · rename_i h
      have hne : n ≠ m := fun e => h (e ▸ hf)
      obtain ⟨h1, h2, h3⟩ := ih (n + 1) (by omega) (by omega)
      refine ⟨h1, by omega, fun k hk1 hk2 => ?_⟩
      rcases Nat.eq_or_lt_of_le hk1 with rfl | hlt
      · simpa using h
      · exact h3 k hlt hk2

/-- `fitsIn` says that `v` lies in `[-2^(DB*n), 2^(DB*n) - 1]` (R66, R68). -/
theorem fitsIn_iff (db : Nat) (v : Int) (n : Nat) :
    fitsIn db v n = true ↔ -(2 ^ (db * n)) ≤ v ∧ v < 2 ^ (db * n) := by
  have hp : (0 : Int) < 2 ^ (db * n) := by positivity
  unfold fitsIn
  split <;> rename_i h <;> simp only [decide_eq_true_eq] <;> constructor
  · intro h'; exact ⟨h', by omega⟩
  · exact fun h' => h'.1
  · intro h'; exact ⟨by omega, h'⟩
  · exact fun h' => h'.2

/-- More limbs hold what fewer limbs hold. -/
theorem fitsIn_mono (db : Nat) (v : Int) (m n : Nat) (h : m ≤ n) (hm : fitsIn db v m = true) : fitsIn db v n = true := by
  rw [fitsIn_iff] at *
  have hp : (2 : Int) ^ (db * m) ≤ 2 ^ (db * n) := pow_le_pow_right₀ (by norm_num) (Nat.mul_le_mul_left db h)
  constructor <;> omega

/-- One limb a bit is always enough, for limbs of at least one bit. -/
theorem fitsIn_bits (db : Nat) (v : Int) (h : 1 ≤ db) : fitsIn db v v.natAbs.log2.succ = true := by
  rw [fitsIn_iff]
  have h1 : v.natAbs < 2 ^ v.natAbs.log2.succ := Nat.lt_log2_self
  have h2 : 2 ^ v.natAbs.log2.succ ≤ 2 ^ (db * v.natAbs.log2.succ) :=
    Nat.pow_le_pow_right (by norm_num) (Nat.le_mul_of_pos_left _ h)
  have h3 : ((v.natAbs : Nat) : Int) < ((2 ^ (db * v.natAbs.log2.succ) : Nat) : Int) := by
    exact_mod_cast lt_of_lt_of_le h1 h2
  push_cast at h3
  exact ⟨by linarith [neg_abs_le v], by linarith [le_abs_self v]⟩

/-- The canonical length is enough limbs, and no smaller number is (R66). -/
theorem canonLen_spec (db : Nat) (v : Int) (h : 1 ≤ db) :
    fitsIn db v (canonLen db v) = true ∧ ∀ k, k < canonLen db v → fitsIn db v k = false := by
  by_cases hex : ∃ m, m < v.natAbs.log2 + 1 ∧ fitsIn db v m = true
  · obtain ⟨m, hm, hf⟩ := hex
    obtain ⟨h1, -, h3⟩ := leastFrom_spec (fitsIn db v) (v.natAbs.log2 + 1) 0 m (Nat.zero_le m) (by omega) hf
    exact ⟨h1, fun k hk => h3 k (Nat.zero_le k) hk⟩
  · have hall : ∀ fuel n, n + fuel = v.natAbs.log2 + 1 → leastFrom (fitsIn db v) fuel n = v.natAbs.log2 + 1 := by
      intro fuel
      induction fuel with
      | zero => intro n hn; simpa [leastFrom] using hn
      | succ fuel ih =>
        intro n hn
        have hno : ¬ fitsIn db v n = true := fun hf => hex ⟨n, by omega, hf⟩
        rw [leastFrom, if_neg hno]
        exact ih (n + 1) (by omega)
    have hlen : canonLen db v = v.natAbs.log2 + 1 := hall _ 0 (by omega)
    rw [hlen]
    refine ⟨fitsIn_bits db v h, fun k hk => ?_⟩
    by_contra hc
    exact hex ⟨k, hk, by simpa using hc⟩

/-- A number of limbs is enough exactly when it is at least the canonical length (R66). -/
theorem canonLen_le_iff (db : Nat) (v : Int) (n : Nat) (h : 1 ≤ db) :
    canonLen db v ≤ n ↔ -(2 ^ (db * n)) ≤ v ∧ v < 2 ^ (db * n) := by
  obtain ⟨h1, h2⟩ := canonLen_spec db v h
  rw [← fitsIn_iff]
  refine ⟨fun hle => fitsIn_mono db v _ _ hle h1, fun hf => ?_⟩
  by_contra hc
  have := h2 n (by omega)
  simp [this] at hf

@[simp] theorem digitsOf_length (db u k : Nat) : (digitsOf db u k).length = k := by simp [digitsOf]

/-- A digit of a number, for limbs that a word holds. -/
theorem digitsOf_getD (db u k i : Nat) (hdb : db ≤ 32) (hi : i < k) :
    ((digitsOf db u k).getD i 0#32).toNat = u / 2 ^ (db * i) % 2 ^ db := by
  have hlt : u / 2 ^ (db * i) % 2 ^ db < 2 ^ 32 :=
    lt_of_lt_of_le (Nat.mod_lt _ (by positivity)) (Nat.pow_le_pow_right (by norm_num) hdb)
  simp only [digitsOf, List.getD, List.getElem?_map, List.getElem?_range hi, Option.map_some, Option.getD_some,
    BitVec.toNat_ofNat, Nat.mod_eq_of_lt hlt]

@[simp] theorem canon_len (db : Nat) (v : Int) : (canon db v).len = canonLen db v := by simp [canon, BigEnc.len]

@[simp] theorem canon_sign (db : Nat) (v : Int) : (canon db v).sign = decide (v < 0) := rfl

/-- Every digit of a canonical encoding is a limb. -/
theorem canon_digits (db : Nat) (v : Int) (hdb : db ≤ 32) : (canon db v).Digits db := by
  intro d hd
  obtain ⟨i, hi, rfl⟩ : ∃ i, i < canonLen db v ∧ _ = d := by
    simpa only [canon, digitsOf, List.mem_map, List.mem_range] using hd
  have hlt : ∀ u, u / 2 ^ (db * i) % 2 ^ db < 2 ^ db := fun u => Nat.mod_lt _ (by positivity)
  have h32 : (2 : Nat) ^ db ≤ 2 ^ 32 := Nat.pow_le_pow_right (by norm_num) hdb
  rw [BitVec.toNat_ofNat, Nat.mod_eq_of_lt (lt_of_lt_of_le (hlt _) h32)]
  exact hlt _

/-- The sign limb is 0 or `DM` (R67). -/
theorem signLimb_toNat (db : Nat) (sign : Bool) (hdb : db ≤ 32) :
    (signLimb db sign).toNat = if sign then 2 ^ db - 1 else 0 := by
  have h32 : (2 : Nat) ^ db ≤ 2 ^ 32 := Nat.pow_le_pow_right (by norm_num) hdb
  have hpos : (0 : Nat) < 2 ^ db := by positivity
  cases sign
  · rfl
  · rw [signLimb, if_pos rfl, BitVec.toNat_ofNat, Nat.mod_eq_of_lt (by omega)]; rfl

/-- What clamp's loop leaves: at most `t` limbs, the top one no sign limb, and every limb above it a sign limb (R67). -/
theorem clampLen_spec (db : Nat) (sign : Bool) (r : List Word) (t : Nat) :
    clampLen db sign r t ≤ t ∧
    (clampLen db sign r t = 0 ∨ r.getD (clampLen db sign r t - 1) 0#32 ≠ signLimb db sign) ∧
    ∀ i, clampLen db sign r t ≤ i → i < t → r.getD i 0#32 = signLimb db sign := by
  induction t with
  | zero => exact ⟨le_refl 0, .inl rfl, fun i _ h => by omega⟩
  | succ t ih =>
    obtain ⟨h1, h2, h3⟩ := ih
    simp only [clampLen]
    split
    · rename_i h
      refine ⟨by omega, h2, fun i hi ht => ?_⟩
      rcases Nat.lt_succ_iff_lt_or_eq.mp ht with hlt | rfl
      · exact h3 i hi hlt
      · exact h
    · rename_i h
      exact ⟨le_refl _, .inr (by simpa using h), fun i hi ht => by omega⟩

/-- The value one limb more adds (R18). -/
@[simp] theorem limbSum_succ (db : Nat) (ds : List Word) (k : Nat) :
    limbSum db ds (k + 1) = limbSum db ds k + (ds.getD k 0#32).toNat * 2 ^ (db * k) := rfl

@[simp] theorem limbSum_zero (db : Nat) (ds : List Word) : limbSum db ds 0 = 0 := rfl

/-- The sum looks only at the limbs it counts. -/
theorem limbSum_congr (db : Nat) (ds es : List Word) (k : Nat) (h : ∀ i < k, ds.getD i 0#32 = es.getD i 0#32) :
    limbSum db ds k = limbSum db es k := by
  induction k with
  | zero => rfl
  | succ k ih => rw [limbSum_succ, limbSum_succ, ih fun i hi => h i (by omega), h k (by omega)]

/-- `k` limbs in `[0, DM]` make less than `2^(DB*k)`. -/
theorem limbSum_lt (db : Nat) (ds : List Word) (k : Nat) (h : ∀ i < k, (ds.getD i 0#32).toNat < 2 ^ db) :
    limbSum db ds k < 2 ^ (db * k) := by
  induction k with
  | zero => simp
  | succ k ih =>
    have h1 := ih fun i hi => h i (by omega)
    have h2 := h k (by omega)
    have h3 : (ds.getD k 0#32).toNat * 2 ^ (db * k) ≤ (2 ^ db - 1) * 2 ^ (db * k) := Nat.mul_le_mul_right _ (by omega)
    have h4 : (2 : Nat) ^ (db * (k + 1)) = 2 ^ db * 2 ^ (db * k) := by rw [Nat.mul_succ, Nat.pow_add, Nat.mul_comm]
    have h5 : (2 ^ db - 1) * 2 ^ (db * k) + 2 ^ (db * k) = 2 ^ db * 2 ^ (db * k) := by
      rw [← Nat.succ_mul]; congr 1; have : (0 : Nat) < 2 ^ db := by positivity
      omega
    rw [limbSum_succ]
    omega

/-- Every digit of an encoding, read by its index, is a limb. -/
theorem BigEnc.getD_lt (db : Nat) (e : BigEnc) (h : e.Digits db) (i : Nat) : (e.digits.getD i 0#32).toNat < 2 ^ db := by
  by_cases hi : i < e.digits.length
  · have : e.digits.getD i 0#32 = e.digits[i] := by simp [List.getD, hi]
    rw [this]; exact h _ (List.getElem_mem hi)
  · have : e.digits.getD i 0#32 = 0#32 := by simp [List.getD, Nat.le_of_not_lt hi]
    rw [this]; simp

end Sys2Proof.Machine
end

