-- ==== Sys2Proof/Laws/RegFile.lean ====
section
/-! SUPPORT. The register file: reading after writing, and that every operation keeps its shape (the length of each
list, and every limb in `[0, DM]`), which the register file after reset has. The block has no other memory. -/

namespace Sys2Proof.Machine

/-- Reading the register just written. -/
theorem Block.reg_setReg_self (p : Params) (b : Block) (k : Nat) (r : BigReg) (h : k < b.regs.length) :
    (b.setReg k r).reg p k = r := by
  simp [Block.reg, List.getD, h]

/-- Writing one register leaves every other. -/
theorem Block.reg_setReg_ne (p : Params) (b : Block) (k j : Nat) (r : BigReg) (h : j ≠ k) :
    (b.setReg k r).reg p j = b.reg p j := by
  simp [Block.reg, List.getD, List.getElem?_set_ne h.symm]

/-- Two writes to one register are the second. -/
@[simp] theorem Block.setReg_setReg (b : Block) (k : Nat) (r r' : BigReg) :
    (b.setReg k r).setReg k r' = b.setReg k r' := by simp [Block.setReg]

/-- `REG[k]` depends on the register file alone. -/
theorem Block.reg_congr (p : Params) (b b' : Block) (k : Nat) (h : b.regs = b'.regs) : b.reg p k = b'.reg p k := by
  simp [Block.reg, h]

/-- A register after reset has the shape. -/
theorem BigReg.afterReset_shape (p : Params) : (BigReg.afterReset p).Shape p :=
  ⟨List.length_replicate, List.length_replicate, fun d hd => by
    rw [List.eq_of_mem_replicate hd]; exact Nat.two_pow_pos _⟩

/-- The register file after reset has the shape. -/
theorem Block.afterReset_shape (p : Params) : (Block.afterReset p).Shape p :=
  ⟨List.length_replicate, fun r hr => by rw [List.eq_of_mem_replicate hr]; exact BigReg.afterReset_shape p⟩

/-- Every register read from a well-shaped file has the shape. -/
theorem Block.reg_shape (p : Params) (b : Block) (k : Nat) (h : b.Shape p) : (b.reg p k).Shape p := by
  by_cases hk : k < b.regs.length
  · have : b.reg p k = b.regs[k] := by simp [Block.reg, List.getD, hk]
    rw [this]; exact h.2 _ (List.getElem_mem hk)
  · have : b.reg p k = BigReg.afterReset p := by simp [Block.reg, List.getD, Nat.le_of_not_lt hk]
    rw [this]; exact BigReg.afterReset_shape p

/-- Masking with the existing limb bits keeps the low `DB` bits (R20). -/
theorem toNat_and_digitMask (p : Params) (w : Word) (h : p.db ≤ 32) : (w &&& digitMask p).toNat = w.toNat % 2 ^ p.db := by
  have h32 : (2 : Nat) ^ p.db ≤ 2 ^ 32 := Nat.pow_le_pow_right (by norm_num) h
  have hpos : (0 : Nat) < 2 ^ p.db := by positivity
  rw [digitMask, BitVec.toNat_and, BitVec.toNat_ofNat, Nat.mod_eq_of_lt (by omega), Nat.and_two_pow_sub_one_eq_mod]

/-- Storing a header word keeps the shape. -/
theorem BigReg.storeHdr_shape (p : Params) (r : BigReg) (w : Word) (h : r.Shape p) : (r.storeHdr w).Shape p := h

/-- Storing a limb word keeps the shape: the stored limb is masked to `DB` bits. -/
theorem BigReg.storeLimb_shape (p : Params) (r : BigReg) (i : Nat) (w : Word) (hp : p.Legal) (h : r.Shape p) :
    (r.storeLimb p i w).Shape p := by
  refine ⟨by simpa using h.1, by simpa using h.2.1, fun d hd => ?_⟩
  rcases List.mem_or_eq_of_mem_set hd with hd | rfl
  · exact h.2.2 d hd
  · rw [toNat_and_digitMask p w hp.2.1]; exact Nat.mod_lt _ (by positivity)

/-- A committed register has the shape, for a result that fits (R73). -/
theorem BigReg.committed_shape (p : Params) (e : BigEnc) (hd : e.Digits p.db) (hl : e.len ≤ p.nlimb) :
    (BigReg.committed p e).Shape p := by
  refine ⟨?_, by simp, fun d h => ?_⟩
  · simp only [BigReg.committed_limbs, List.length_append, List.length_replicate]
    have : e.digits.length = e.len := rfl
    omega
  · rcases List.mem_append.mp h with h | h
    · exact hd d h
    · rw [List.eq_of_mem_replicate h]; exact Nat.two_pow_pos _

/-- Writing a well-shaped register keeps the file's shape. -/
theorem Block.setReg_shape (p : Params) (b : Block) (k : Nat) (r : BigReg) (hb : b.Shape p) (hr : r.Shape p) :
    (b.setReg k r).Shape p := by
  refine ⟨by simpa using hb.1, fun q hq => ?_⟩
  rcases List.mem_or_eq_of_mem_set hq with hq | rfl
  · exact hb.2 q hq
  · exact hr

/-- What a committed register holds is the encoding that was committed (R73). -/
theorem BigReg.committed_enc (p : Params) (e : BigEnc) (hp : p.Legal) (hl : e.len ≤ p.nlimb) :
    (BigReg.committed p e).enc = e := by
  have hm : e.len % 2 ^ 9 = e.len := Nat.mod_eq_of_lt (by obtain ⟨-, -, -, h, -⟩ := hp; omega)
  simp only [BigReg.enc, BigReg.committed_sign, BigReg.committed_len, BigReg.committed_limbs, BitVec.toNat_ofNat, hm]
  rw [List.take_left' (show e.digits.length = e.len from rfl)]

/-- The commit sets the length field to the length of the result (R73). -/
theorem BigReg.committed_len_toNat (p : Params) (e : BigEnc) (hp : p.Legal) (hl : e.len ≤ p.nlimb) :
    (BigReg.committed p e).len.toNat = e.len := by
  have : e.len < 2 ^ 9 := by obtain ⟨-, -, -, h, -⟩ := hp; omega
  rw [BigReg.committed_len, BitVec.toNat_ofNat, Nat.mod_eq_of_lt this]

/-- Every limb word that counts is written, index by index (R22). -/
theorem BigReg.limbsReady_iff (r : BigReg) :
    r.limbsReady = true ↔ ∀ i < r.len.toNat, r.limbWritten.getD i false = true := by
  simp [BigReg.limbsReady, List.all_eq_true]

/-- A commit leaves every limb word written. -/
theorem BigReg.committed_limbsReady (p : Params) (e : BigEnc) (hp : p.Legal) (hl : e.len ≤ p.nlimb) :
    (BigReg.committed p e).limbsReady = true := by
  rw [BigReg.limbsReady_iff]
  intro i hi
  rw [BigReg.committed_len_toNat p e hp hl] at hi
  have : i < p.nlimb := by omega
  simp [List.getD, this]

end Sys2Proof.Machine
end

