-- ==== Sys2Proof/Laws/Bus.lean ====
section
/-! SUPPORT. The bus window: where each offset leads, and what one host access does. -/

namespace Sys2Proof.Machine

@[simp] theorem targetOf_cfg (p : Params) : targetOf p 0x000 = .cfg := rfl
@[simp] theorem targetOf_cmd (p : Params) : targetOf p 0x004 = .cmd := rfl
@[simp] theorem targetOf_status (p : Params) : targetOf p 0x008 = .status := rfl
@[simp] theorem targetOf_ctrl (p : Params) : targetOf p 0x00C = .ctrl := rfl

/-- The header offset of an existing register leads to its header (R42). -/
theorem targetOf_hdrOffset (p : Params) (k : Nat) (hk : k < p.nreg) : targetOf p (hdrOffset k) = .hdr k := by
  have h1 : (hdrOffset k - 0x1000) / 0x400 = k := by unfold hdrOffset; omega
  have h2 : (hdrOffset k - 0x1000) % 0x400 = 0 := by unfold hdrOffset; omega
  have h3 : 0x1000 ≤ hdrOffset k := by unfold hdrOffset; omega
  unfold targetOf
  rw [if_neg (by omega), if_neg (by omega), if_neg (by omega), if_neg (by omega), if_neg (by omega)]
  simp [h1, h2, hk]

/-- The limb offset of an existing limb leads to it (R42). -/
theorem targetOf_limbOffset (p : Params) (k i : Nat) (hk : k < p.nreg) (hi : i < p.nlimb) (hn : p.nlimb ≤ 255) :
    targetOf p (limbOffset k i) = .limb k i := by
  have h1 : (limbOffset k i - 0x1000) / 0x400 = k := by unfold limbOffset; omega
  have h2 : (limbOffset k i - 0x1000) % 0x400 = 4 + 4 * i := by unfold limbOffset; omega
  have h3 : 0x1000 ≤ limbOffset k i := by unfold limbOffset; omega
  have h4 : (4 + 4 * i - 4) / 4 = i := by omega
  unfold targetOf
  rw [if_neg (by omega), if_neg (by omega), if_neg (by omega), if_neg (by omega), if_neg (by omega)]
  simp only [h1, h2, h4]
  rw [if_neg (by omega), if_neg (by omega), if_pos hi]

/-- Everything a word-aligned offset can lead to, and from where (R41, R42). -/
theorem targetOf_cases (p : Params) (off : Nat) (ha : off % 4 = 0) :
    (off = 0x000 ∧ targetOf p off = .cfg) ∨ (off = 0x004 ∧ targetOf p off = .cmd) ∨
    (off = 0x008 ∧ targetOf p off = .status) ∨ (off = 0x00C ∧ targetOf p off = .ctrl) ∨
    (∃ k, k < p.nreg ∧ off = hdrOffset k ∧ targetOf p off = .hdr k) ∨
    (∃ k i, k < p.nreg ∧ i < p.nlimb ∧ off = limbOffset k i ∧ targetOf p off = .limb k i) ∨
    targetOf p off = .razwi := by
  by_cases h0 : off = 0x000
  · subst h0; simp
  by_cases h1 : off = 0x004
  · subst h1; simp
  by_cases h2 : off = 0x008
  · subst h2; simp
  by_cases h3 : off = 0x00C
  · subst h3; simp
  by_cases h4 : off < 0x1000
  · refine .inr (.inr (.inr (.inr (.inr (.inr ?_)))))
    simp [targetOf, h0, h1, h2, h3, h4]
  have hoff : off = 0x1000 + 0x400 * ((off - 0x1000) / 0x400) + (off - 0x1000) % 0x400 := by omega
  by_cases h5 : p.nreg ≤ (off - 0x1000) / 0x400
  · refine .inr (.inr (.inr (.inr (.inr (.inr ?_)))))
    simp [targetOf, h0, h1, h2, h3, h4, h5]
  by_cases h6 : (off - 0x1000) % 0x400 = 0
  · refine .inr (.inr (.inr (.inr (.inl ⟨(off - 0x1000) / 0x400, by omega, by unfold hdrOffset; omega, ?_⟩))))
    simp [targetOf, h0, h1, h2, h3, h4, h5, h6]
  by_cases h7 : ((off - 0x1000) % 0x400 - 4) / 4 < p.nlimb
  · refine .inr (.inr (.inr (.inr (.inr (.inl ⟨(off - 0x1000) / 0x400, ((off - 0x1000) % 0x400 - 4) / 4, by omega, h7,
      by unfold limbOffset; omega, ?_⟩)))))
    simp [targetOf, h0, h1, h2, h3, h4, h5, h6, h7]
  · refine .inr (.inr (.inr (.inr (.inr (.inr ?_)))))
    simp [targetOf, h0, h1, h2, h3, h4, h5, h6, h7]

/-- An offset that names nothing leads nowhere (R41, R42). -/
theorem targetOf_razWi (p : Params) (off : Nat) (h : RazWi p off) : targetOf p off = .razwi := by
  obtain ⟨-, ha, h0, h1, h2, h3, hh, hl⟩ := h
  rcases targetOf_cases p off ha with h | h | h | h | ⟨k, hk, h, -⟩ | ⟨k, i, hk, hi, h, -⟩ | h
  · exact absurd h.1 h0
  · exact absurd h.1 h1
  · exact absurd h.1 h2
  · exact absurd h.1 h3
  · exact absurd h (hh k hk)
  · exact absurd h (hl k hk i hi)
  · exact h

/-- A legal access is performed (R44). -/
theorem hostTurn_legal (a : Access) (s : State) (h : a.Legal s.params) : hostTurn a s = .next (a.perform s) := by
  obtain ⟨h1, h2, h3⟩ := h
  simp [hostTurn, h1, h2, h3]

/-- Only a legal access gets a next state, and that is its effect (R44). -/
theorem hostTurn_next (a : Access) (s t : State) (h : hostTurn a s = .next t) : a.Legal s.params ∧ t = a.perform s := by
  unfold hostTurn at h
  split at h
  · cases h
  split at h
  · cases h
  split at h
  · cases h
  rename_i h1 h2 h3
  exact ⟨⟨not_not.mp h1, not_not.mp h2, not_not.mp h3⟩, by cases h; rfl⟩

/-- A read changes nothing but the host's own data (R45). -/
theorem hostRead_rest (t : Target) (s : State) :
    (hostRead t s).params = s.params ∧ (hostRead t s).block = s.block ∧ (hostRead t s).schedule = s.schedule := by
  unfold hostRead
  split <;> exact ⟨rfl, rfl, rfl⟩

/-- A read of a word that has a value returns it (R45). -/
theorem hostRead_some (t : Target) (s : State) (w : Word) (h : s.block.readTarget s.params t = some w) :
    hostRead t s = { s with readData := some w } := by
  unfold hostRead; rw [h]

/-- A read of an unwritten word returns a fresh draw with its RAZ fields zero (10_state.md R22). -/
theorem hostRead_none (t : Target) (s : State) (h : s.block.readTarget s.params t = none) :
    hostRead t s =
      { s with readData := some (Config.draw s.draws &&& t.drawMask s.params), draws := s.draws + 1 } := by
  unfold hostRead; rw [h]

/-- A write keeps the register file's shape (R46, R48). -/
theorem Block.writeTarget_shape (p : Params) (b : Block) (w : Word) (t : Target) (hp : p.Legal) (h : b.Shape p) :
    (b.writeTarget p w t).Shape p := by
  cases t with
  | cmd => unfold Block.writeTarget; dsimp only; split <;> exact h
  | hdr k =>
    unfold Block.writeTarget; dsimp only; split
    · exact h
    · exact Block.setReg_shape p b k _ h (BigReg.storeHdr_shape p _ w (Block.reg_shape p b k h))
  | limb k i =>
    unfold Block.writeTarget; dsimp only; split
    · exact h
    · exact Block.setReg_shape p b k _ h (BigReg.storeLimb_shape p _ i w hp (Block.reg_shape p b k h))
  | _ => exact h

end Sys2Proof.Machine
end

