-- ==== Sys2Proof/Laws/Ops.lean ====
section
/-! SUPPORT. What each shared operation of a completion can do, said once: the verdict of the checks, its effect, and the
two meanings in terms of them. -/

namespace Sys2Proof.Machine

/-- Everything the checks of R72 can answer, each with the condition it is answered under, in the order of R83. -/
theorem Block.judge_cases (p : Params) (b : Block) (sub : Bool) (rd rs1 rs2 : Nat) :
    (b.judge p sub rd rs1 rs2 = .error .badReg ∧ (p.nreg ≤ rd ∨ p.nreg ≤ rs1 ∨ p.nreg ≤ rs2)) ∨
    ((rd < p.nreg ∧ rs1 < p.nreg ∧ rs2 < p.nreg) ∧
      ((b.judge p sub rd rs1 rs2 = .fault .unwrittenOperand ∧
        ((b.reg p rs1).hdrWritten = false ∨ (b.reg p rs2).hdrWritten = false)) ∨
      ((b.reg p rs1).hdrWritten = true ∧ (b.reg p rs2).hdrWritten = true) ∧
        ((b.judge p sub rd rs1 rs2 = .error .badLen ∧
          (p.nlimb < (b.reg p rs1).len.toNat ∨ p.nlimb < (b.reg p rs2).len.toNat)) ∨
        ((b.reg p rs1).len.toNat ≤ p.nlimb ∧ (b.reg p rs2).len.toNat ≤ p.nlimb) ∧
          ((b.judge p sub rd rs1 rs2 = .fault .unwrittenOperand ∧
            ((b.reg p rs1).limbsReady = false ∨ (b.reg p rs2).limbsReady = false)) ∨
          ((b.reg p rs1).limbsReady = true ∧ (b.reg p rs2).limbsReady = true) ∧
            ((b.judge p sub rd rs1 rs2 = .error .overflow ∧
              p.nlimb < (canon p.db (resultOf sub p b rs1 rs2)).len) ∨
            (b.judge p sub rd rs1 rs2 = .commit (resultOf sub p b rs1 rs2) ∧
              (canon p.db (resultOf sub p b rs1 rs2)).len ≤ p.nlimb)))))) := by
  by_cases h1 : p.nreg ≤ rd ∨ p.nreg ≤ rs1 ∨ p.nreg ≤ rs2
  · exact .inl ⟨by simp [Block.judge, h1], h1⟩
  refine .inr ⟨by omega, ?_⟩
  by_cases h2 : (b.reg p rs1).hdrWritten = false ∨ (b.reg p rs2).hdrWritten = false
  · exact .inl ⟨by simp only [Block.judge, if_neg h1, if_pos h2], h2⟩
  refine .inr ⟨by simpa using h2, ?_⟩
  by_cases h3 : p.nlimb < (b.reg p rs1).len.toNat ∨ p.nlimb < (b.reg p rs2).len.toNat
  · exact .inl ⟨by simp only [Block.judge, if_neg h1, if_neg h2, if_pos h3], h3⟩
  refine .inr ⟨by omega, ?_⟩
  by_cases h4 : (b.reg p rs1).limbsReady = false ∨ (b.reg p rs2).limbsReady = false
  · exact .inl ⟨by simp only [Block.judge, if_neg h1, if_neg h2, if_neg h3, if_pos h4], h4⟩
  refine .inr ⟨by simpa using h4, ?_⟩
  by_cases h5 : p.nlimb < (canon p.db (resultOf sub p b rs1 rs2)).len
  · refine .inl ⟨?_, h5⟩
    simp only [Block.judge, if_neg h1, if_neg h2, if_neg h3, if_neg h4]
    exact if_pos h5
  · refine .inr ⟨?_, by omega⟩
    simp only [Block.judge, if_neg h1, if_neg h2, if_neg h3, if_neg h4]
    exact if_neg h5

/-- The verdict is a commit exactly when the command commits. -/
theorem Block.judge_commit (p : Params) (b : Block) (sub : Bool) (rd rs1 rs2 : Nat) (h : b.Commits p sub rd rs1 rs2) :
    b.judge p sub rd rs1 rs2 = .commit (resultOf sub p b rs1 rs2) := by
  obtain ⟨h1, ⟨h2, h3, h4, h5⟩, ⟨h6, h7, h8, h9⟩, h10⟩ := h
  rcases Block.judge_cases p b sub rd rs1 rs2 with h | ⟨-, h | ⟨-, h | ⟨-, h | ⟨-, h | h⟩⟩⟩⟩
  · omega
  · simp [h3, h7] at h
  · omega
  · simp [h5, h9] at h
  · omega
  · exact h.1

/-- Only a command that commits gets that verdict, with the exact result. -/
theorem Block.commits_of_judge (p : Params) (b : Block) (sub : Bool) (rd rs1 rs2 : Nat) (v : Int)
    (h : b.judge p sub rd rs1 rs2 = .commit v) : b.Commits p sub rd rs1 rs2 ∧ v = resultOf sub p b rs1 rs2 := by
  rcases Block.judge_cases p b sub rd rs1 rs2 with
    h' | ⟨h1, h' | ⟨h2, h' | ⟨h3, h' | ⟨h4, h' | h'⟩⟩⟩⟩ <;> rw [h'.1] at h <;> simp at h
  exact ⟨⟨h1.1, ⟨h1.2.1, h2.1, h3.1, h4.1⟩, ⟨h1.2.2, h2.2, h3.2, h4.2⟩, h'.2⟩, h.symm⟩

/-- Whatever the verdict, a completion writes the registers of the block or one commit, and leaves LASTCMD, BUSYERR and
CTRL (R72, R82). -/
theorem Block.conclude_rest (p : Params) (b : Block) (rd : Nat) (v : Verdict) :
    (b.conclude p rd v).lastcmd = b.lastcmd ∧ (b.conclude p rd v).busyerr = b.busyerr ∧ (b.conclude p rd v).ie = b.ie ∧
    (b.conclude p rd v).regs.length = b.regs.length ∧
    ∀ k, k ≠ rd → (b.conclude p rd v).reg p k = b.reg p k := by
  cases v with
  | error c => exact ⟨rfl, rfl, rfl, rfl, fun _ _ => rfl⟩
  | fault r => exact ⟨rfl, rfl, rfl, rfl, fun _ _ => rfl⟩
  | commit v => exact ⟨rfl, rfl, rfl, by simp, fun k hk => Block.reg_setReg_ne p b rd k _ hk⟩

/-- ADD is one completion. -/
@[simp] theorem exec_add (rd rs1 rs2 : Nat) (s : State) :
    exec (.add rd rs1 rs2) s = .next (completeAddSub false rd rs1 rs2 s) := rfl

/-- SUB is one completion. -/
@[simp] theorem exec_sub (rd rs1 rs2 : Nat) (s : State) :
    exec (.sub rd rs1 rs2) s = .next (completeAddSub true rd rs1 rs2 s) := rfl

/-- Both at once. -/
theorem exec_addSubInstr (sub : Bool) (rd rs1 rs2 : Nat) (s : State) :
    exec (addSubInstr sub rd rs1 rs2) s = .next (completeAddSub sub rd rs1 rs2 s) := by cases sub <;> rfl

/-- Every instruction is one of the two forms. -/
theorem exists_addSubInstr (i : Instr) : ∃ sub rd rs1 rs2, i = addSubInstr sub rd rs1 rs2 := by
  cases i with
  | add rd rs1 rs2 => exact ⟨false, rd, rs1, rs2, rfl⟩
  | sub rd rs1 rs2 => exact ⟨true, rd, rs1, rs2, rfl⟩

/-- A commit's block, for a command that commits. -/
theorem completeAddSub_commit (sub : Bool) (rd rs1 rs2 : Nat) (s : State) (h : s.block.Commits s.params sub rd rs1 rs2) :
    completeAddSub sub rd rs1 rs2 s =
      { s with block := s.block.finishOk s.params rd (resultOf sub s.params s.block rs1 rs2) } := by
  simp only [completeAddSub, Block.judge_commit _ _ _ _ _ _ h, Block.conclude_commit]

end Sys2Proof.Machine
end

