-- ==== Sys2Proof/Laws/PerInstr.lean ====
section
/-! SUPPORT. The family of statements made per instruction: the encoding of a well-formed instruction is no Illegal word
(spec 30_encoding.md R59): its reserved bits are zero, and `OP` is `0x1` or `0x2`. -/

namespace Sys2Proof.Laws.EncodingIsLegal

/-- The reserved bits of the encoding are zero and its `OP` is one of the two opcodes. -/
def Statement (i : Instr) : Prop :=
  i.WellFormed → encode i &&& rsvdMask = 0#32 ∧ (fieldOp (encode i) = 0x1#4 ∨ fieldOp (encode i) = 0x2#4)

/-- The register fields touch no reserved bit and no bit of `OP`. -/
theorem encodeRegs_bits : ∀ rd rs1 rs2 : Fin 8,
    encodeRegs rd rs1 rs2 &&& rsvdMask = 0#32 ∧ fieldOp (encodeRegs rd rs1 rs2) = 0x0#4 := by decide

/-- The fields of an OR are the ORs of the fields. -/
theorem fieldOp_or (x y : Word) : fieldOp (x ||| y) = fieldOp x ||| fieldOp y := BitVec.extractLsb'_or ..

/-- The reserved bits of an OR are the OR of the reserved bits. -/
theorem or_and_rsvdMask (x y : Word) : (x ||| y) &&& rsvdMask = (x &&& rsvdMask) ||| (y &&& rsvdMask) := by
  ext i hi
  simp [Bool.and_or_distrib_right]

/-- `ADD` (R75). -/
theorem add (rd rs1 rs2 : Nat) : Statement (.add rd rs1 rs2) := by
  intro h
  simp only [Instr.WellFormed, Instr.wellFormed, regFieldOk, Bool.and_eq_true, decide_eq_true_eq] at h
  obtain ⟨h1, h2⟩ := encodeRegs_bits ⟨rd, h.1.1⟩ ⟨rs1, h.1.2⟩ ⟨rs2, h.2⟩
  refine ⟨?_, .inl ?_⟩
  · rw [encode, or_and_rsvdMask]; simp only at h1; rw [h1]; decide
  · rw [encode, fieldOp_or]; simp only at h2; rw [h2]; decide

/-- `SUB` (R76). -/
theorem sub (rd rs1 rs2 : Nat) : Statement (.sub rd rs1 rs2) := by
  intro h
  simp only [Instr.WellFormed, Instr.wellFormed, regFieldOk, Bool.and_eq_true, decide_eq_true_eq] at h
  obtain ⟨h1, h2⟩ := encodeRegs_bits ⟨rd, h.1.1⟩ ⟨rs1, h.1.2⟩ ⟨rs2, h.2⟩
  refine ⟨?_, .inr ?_⟩
  · rw [encode, or_and_rsvdMask]; simp only at h1; rw [h1]; decide
  · rw [encode, fieldOp_or]; simp only at h2; rw [h2]; decide

end Sys2Proof.Laws.EncodingIsLegal
end

