-- ==== Sys2Proof/Laws/Step.lean ====
section
/-! SUPPORT. Everything one step can do, said once. -/

namespace Sys2Proof.Machine

/-- The state in which the first turn of the schedule has been taken. -/
abbrev State.popped (s : State) : State := { s with schedule := s.schedule.tail }

/-- The completion step runs the decoded command, or completes with ILLEGAL (R72). -/
theorem completeStep_next (s t : State) (h : completeStep s = .next t) :
    (∃ e, decode s.block.lastcmd = .error e ∧ t = completeIllegal s) ∨
    (∃ sub rd rs1 rs2, decode s.block.lastcmd = .ok (addSubInstr sub rd rs1 rs2) ∧
      t = completeAddSub sub rd rs1 rs2 s) := by
  unfold completeStep at h
  split at h
  · rename_i i hi
    obtain ⟨sub, rd, rs1, rs2, rfl⟩ := exists_addSubInstr i
    rw [exec_addSubInstr] at h
    exact .inr ⟨sub, rd, rs1, rs2, hi, by cases h; rfl⟩
  · rename_i e he
    exact .inl ⟨e, he, by cases h; rfl⟩

/-- The completion step always has a next state (R72). -/
theorem completeStep_isNext (s : State) : ∃ t, completeStep s = .next t := by
  unfold completeStep
  split
  · rename_i i _
    obtain ⟨sub, rd, rs1, rs2, rfl⟩ := exists_addSubInstr i
    exact ⟨_, exec_addSubInstr sub rd rs1 rs2 s⟩
  · exact ⟨_, rfl⟩

/-- Every next state comes from one of five events: the engine completes, a legal host access, reset, an engine turn
with no step to take, or nothing left to do. -/
theorem step_cases (s t : State) (h : step s = .next t) :
    (s.Completes ∧ completeStep s.popped = .next t) ∨
    (∃ a rest, s.schedule = .host a :: rest ∧ a.Legal s.params ∧ t = a.perform s.popped) ∨
    (s.Resets ∧ t = resetTurn s.popped) ∨
    (¬ s.block.Enabled ∧ s.schedule.head? = some .engine ∧ t = s.popped) ∨
    (¬ s.block.Enabled ∧ s.schedule = [] ∧ s.block.fault = none ∧ t = s) := by
  unfold step at h
  split at h
  · rename_i hs
    have hp : s.popped = s := by obtain ⟨_, _, sch, _, _⟩ := s; cases hs; rfl
    unfold idle at h
    split at h
    · rename_i he
      exact .inl ⟨⟨he, .inl hs⟩, by rw [hp]; exact h⟩
    · rename_i he
      split at h
      · cases h
      · rename_i hf
        exact .inr (.inr (.inr (.inr ⟨he, hs, hf, by cases h; rfl⟩)))
  · rename_i u rest hs
    have hp : s.popped = { s with schedule := rest } := by simp [State.popped, hs]
    cases u with
    | host a =>
      obtain ⟨h1, h2⟩ := hostTurn_next a _ t h
      exact .inr (.inl ⟨a, rest, hs, h1, by rw [hp]; exact h2⟩)
    | reset => exact .inr (.inr (.inl ⟨by simp [State.Resets, hs], by cases h; rw [hp]⟩))
    | engine =>
      simp only [takeTurn, engineTurn] at h
      split at h
      · rename_i he
        exact .inl ⟨⟨he, .inr (by simp [hs])⟩, by rw [hp]; exact h⟩
      · rename_i he
        exact .inr (.inr (.inr (.inl ⟨he, by simp [hs], by cases h; rw [hp]⟩)))

/-- A host read as the next step (R45). -/
theorem step_ld32 (s : State) (off : Nat) (rest : List Turn) (hoff : off < windowBytes) (ha : off % 4 = 0)
    (hs : s.schedule = ld32 s.params off :: rest) : step s = .next (hostRead (targetOf s.params off) s.popped) := by
  have hl : (Access.read .w32 (s.params.base + off)).Legal s.popped.params := by
    refine ⟨⟨?_, ?_⟩, rfl, ?_⟩ <;> simp [Access.addr, ha, hoff]
  have hp : s.popped = { s with schedule := rest } := by simp [State.popped, hs]
  have h : step s = hostTurn (.read .w32 (s.params.base + off)) s.popped := by rw [hp]; unfold step; rw [hs]; rfl
  rw [h, hostTurn_legal _ _ hl]
  simp [Access.perform]

/-- A host write as the next step (R46, R48). -/
theorem step_st32 (s : State) (off : Nat) (w : Word) (rest : List Turn) (hoff : off < windowBytes) (ha : off % 4 = 0)
    (hs : s.schedule = st32 s.params off w :: rest) : step s = .next (hostWrite (targetOf s.params off) w s.popped) := by
  have hl : (Access.write .w32 (s.params.base + off) w).Legal s.popped.params := by
    refine ⟨⟨?_, ?_⟩, rfl, ?_⟩ <;> simp [Access.addr, ha, hoff]
  have hp : s.popped = { s with schedule := rest } := by simp [State.popped, hs]
  have h : step s = hostTurn (.write .w32 (s.params.base + off) w) s.popped := by rw [hp]; unfold step; rw [hs]; rfl
  rw [h, hostTurn_legal _ _ hl]
  simp [Access.perform]

/-- A run of one step more goes on from the next state. -/
theorem coreRun_next (M : Host.Core) (k : Nat) (s t : M.State) (h : M.step s = .next t) :
    M.run (k + 1) s = M.run k t := by
  rw [Host.Core.run, h]

/-- `coreRun_next` for this machine. -/
theorem core_run_next (k : Nat) (s t : State) (h : step s = .next t) :
    Sys2Proof.core.run (k + 1) s = Sys2Proof.core.run k t :=
  coreRun_next Sys2Proof.core k s t h

end Sys2Proof.Machine
end

