-- ==== Sys2Proof/Tests/Slice0.lean ====
section
/-! SUPPORT. Tests against words and vectors written out in the spec, the smoke test of WellFormed, and for each
obligation with hypotheses a state and operands that meet them. -/

namespace Sys2Proof.Tests

open Sys2Proof Sys2Proof.Machine

/-! ### Decoding: words written out from 30_encoding.md R56-R58, R62 and 95_test_vectors.md E20-E22 -/

/-- Bits 18:16 = 001, 14:12 = 000, 10:8 = 010, 3:0 = 0001 (E20). -/
theorem test_decode_add : decode 0b0000000000000_001_0_000_0_010_0000_0001#32 = .ok (.add 2 0 1) := by decide

/-- Bits 18:16 = 111, 14:12 = 111, 10:8 = 111, 3:0 = 0010 (E21). -/
theorem test_decode_sub : decode 0b0000000000000_111_0_111_0_111_0000_0010#32 = .ok (.sub 7 7 7) := by decide

/-- Three different fields: `ADD r0, r1, r5` of E5. -/
theorem test_decode_add_fields : decode 0x00051001#32 = .ok (.add 0 1 5) := by decide

/-- Three different fields in SUB: `SUB r4, r2, r1`. -/
theorem test_decode_sub_fields : decode 0b0000000000000_001_0_010_0_100_0000_0010#32 = .ok (.sub 4 2 1) := by decide

/-- Bit 19 is reserved (E22). -/
theorem test_decode_reserved_bit : decode 0x00080001#32 = .error .reservedBits := by decide

/-- OP 0 and OP 3 are illegal (E1, E2). -/
theorem test_decode_reserved_op :
    decode 0x00000000#32 = .error .reservedOp ∧ decode 0x00000003#32 = .error .reservedOp := by decide

/-- The host's numbering is that of the word. -/
theorem test_table_word :
    decodeTableWord 32 0x00010201 = some (.add 2 0 1) ∧ decodeTableWord 32 0x00080001 = none := by decide

/-- The text of R62's example. -/
theorem test_asm : parseAsm ['A', 'D', 'D', ' ', 'r', '2', ',', ' ', 'r', '0', ',', ' ', 'r', '1'] = some (.add 2 0 1) := by
  decide

/-! ### WellFormed refuses: one ill-formed term for each check -/

theorem test_wellFormed_add_rd : (Instr.add 8 0 0).wellFormed = false := by decide
theorem test_wellFormed_add_rs1 : (Instr.add 0 8 0).wellFormed = false := by decide
theorem test_wellFormed_add_rs2 : (Instr.add 0 0 8).wellFormed = false := by decide
theorem test_wellFormed_sub_rd : (Instr.sub 8 0 0).wellFormed = false := by decide
theorem test_wellFormed_sub_rs1 : (Instr.sub 0 8 0).wellFormed = false := by decide
theorem test_wellFormed_sub_rs2 : (Instr.sub 0 0 8).wellFormed = false := by decide
theorem test_wellFormed_edge : (Instr.sub 7 7 7).wellFormed = true := by decide

/-! ### Small states -/

/-- A small build of the reference digit width: NLIMB limbs, four registers. -/
def small (nlimb : Nat) : Params := { db := 26, nlimb := nlimb, nreg := 4, base := 0x8000 }

/-- A small build of 4-bit digits, two limbs, four registers. -/
def tiny : Params := { db := 4, nlimb := 2, nreg := 4, base := 0x8000 }

/-- A written register. -/
def wreg (sign : Bool) (len : BitVec 9) (limbs : List Word) : BigReg where
  sign := sign
  len := len
  limbs := limbs
  hdrWritten := true
  limbWritten := limbs.map fun _ => true

/-- An idle state with these registers. -/
def idleWith (p : Params) (regs : List BigReg) : State :=
  { State.resetWith p with block := { Block.afterReset p with regs := regs } }

/-- The state with the command word `w` in flight. -/
def busyWith (s : State) (w : Word) : State := { s with block := s.block.accept w }

/-- The state with these turns to come. -/
def sched (s : State) (ts : List Turn) : State := { s with schedule := ts }

/-- The next state, if there is one. -/
def nextOf : Host.Outcome State Fault Refusal → Option State
  | .next t => some t
  | _ => none

/-- Register `k` and `STATUS` of the next state. -/
def seen (k : Nat) (o : Host.Outcome State Fault Refusal) : Option (BigEnc × Word) :=
  (nextOf o).map fun t => ((t.block.reg t.params k).enc, t.block.statusWord)

/-- What the host read. -/
def readBack (o : Host.Outcome State Fault Refusal) : Option Word := (nextOf o).bind State.readData

/-- `r0 = DM`, `r1 = 1`, `r2 = -2^8` (the least value of two limbs), `r3 = 0`. -/
def s0 : State :=
  idleWith tiny
    [wreg false 1#9 [0xF#32, 0#32], wreg false 1#9 [1#32, 0#32], wreg true 2#9 [0#32, 0#32], wreg false 0#9 [0#32, 0#32]]

/-- `s0` with a header of 3 limbs in `r3`, one more than the build has. -/
def sLong : State :=
  idleWith tiny
    [wreg false 1#9 [0xF#32, 0#32], wreg false 1#9 [1#32, 0#32], wreg true 2#9 [0#32, 0#32], wreg false 3#9 [0#32, 0#32]]

/-- `r0` has its header written and its one limb not. -/
def sHalf : State :=
  idleWith tiny
    ({ wreg false 1#9 [0#32, 0#32] with limbWritten := [false, false] } ::
      [wreg false 1#9 [1#32, 0#32], wreg true 2#9 [0#32, 0#32], wreg false 0#9 [0#32, 0#32]])

/-- Nothing written. -/
def sFresh : State := State.resetWith tiny

/-! ### ADD and SUB on the spec's vectors -/

/-- V25: `ADD r1, r1, r1` with `r1 = DM`. -/
theorem test_add_doubles_in_place :
    seen 1 (exec (.add 1 1 1) (busyWith (idleWith (small 2)
      [wreg false 0#9 [0#32, 0#32], wreg false 1#9 [0x3FFFFFF#32, 0#32], wreg false 0#9 [0#32, 0#32],
        wreg false 0#9 [0#32, 0#32]]) 0x00011101#32)) =
      some ({ sign := false, digits := [0x3FFFFFE#32, 0x1#32] }, 0x2#32) := by decide

/-- E7: `2^52` needs three limbs, and `r2` is unchanged. -/
theorem test_add_overflow :
    seen 2 (exec (.add 2 0 1) (busyWith (idleWith (small 2)
      [wreg false 2#9 [0x3FFFFFF#32, 0x3FFFFFF#32], wreg false 1#9 [1#32, 0#32], wreg false 0#9 [0#32, 0#32],
        wreg false 0#9 [0#32, 0#32]]) 0x00010201#32)) =
      some ({ sign := false, digits := [] }, 0x42#32) := by decide

/-- V24: non-canonical operands, and a negative result of three limbs. -/
theorem test_sub_noncanonical :
    seen 2 (exec (.sub 2 0 1) (busyWith (idleWith (small 3)
      [wreg true 3#9 [7#32, 0#32, 0#32], wreg true 1#9 [7#32, 0#32, 0#32], wreg false 0#9 [0#32, 0#32, 0#32],
        wreg false 0#9 [0#32, 0#32, 0#32]]) 0x00010202#32)) =
      some ({ sign := true, digits := [0#32, 1#32, 0#32] }, 0xA#32) := by decide

/-- R76: `0 - 1` is -1, a result of length 0. -/
theorem test_sub_minus_one :
    seen 2 (exec (.sub 2 3 1) (busyWith s0 0x00013202#32)) =
      some ({ sign := true, digits := [] }, 0xA#32) := by decide

/-! ### Host accesses and reset -/

/-- E10. -/
theorem test_read_cfg : readBack (step (sched State.reset [ld32 Params.reference 0])) = some 0x0180081A#32 := by
  decide

/-- E17: a command write while busy is dropped. -/
theorem test_write_cmd_busy :
    (nextOf (step (sched (busyWith s0 0x00013202#32) [st32 tiny 4 0x00010201#32]))).map
      (fun t => (t.block.lastcmd, t.block.statusWord)) = some (0x00013202#32, 0x101#32) := by decide

/-- E11: `HDR` discards its reserved bits. -/
theorem test_write_hdr :
    (nextOf (step (sched sFresh [st32 tiny 0x1000 0x7FFFFE01#32]))).map
      (fun t => (t.block.reg t.params 0).hdrWord) = some 0x00000001#32 := by decide

/-- E15: an operand never written is the model fault, and `BUSY` stays 1. -/
theorem test_unwritten_operand :
    (nextOf (step (busyWith sFresh 0x00010201#32))).map (fun t => (t.block.fault, t.block.busy)) =
      some (some .unwrittenOperand, true) := by decide

/-- A command word placed with `withFetchWord` runs in the very next step. -/
theorem test_withFetchWord :
    seen 2 (step (s0.withFetchWord 32 0x00013202)) = some ({ sign := true, digits := [] }, 0xA#32) := by decide

/-! ### Witnesses: for each obligation with hypotheses, a state and operands that meet them together -/

/-- Every limb of a list is a digit, by evaluation (a plain `decide` would try all `2^32` words). -/
theorem digits_of_all (db : Nat) (l : List Word) (h : l.all (fun d => decide (d.toNat < 2 ^ db)) = true) :
    ∀ d ∈ l, d.toNat < 2 ^ db := by simpa using h

/-- A register file is well shaped, by evaluation. -/
theorem shape_of_all (p : Params) (b : Block) (h : b.regs.length = p.nreg)
    (h' : b.regs.all (fun r => decide (r.limbs.length = p.nlimb ∧ r.limbWritten.length = p.nlimb) &&
      r.limbs.all fun d => decide (d.toNat < 2 ^ p.db)) = true) : b.Shape p := by
  refine ⟨h, fun r hr => ?_⟩
  have := List.all_eq_true.mp h' r hr
  simp only [Bool.and_eq_true, decide_eq_true_eq] at this
  exact ⟨this.1.1, this.1.2, digits_of_all _ _ this.2⟩

theorem s0_shape : s0.block.Shape s0.params := shape_of_all _ _ rfl (by decide)

theorem s0_busy_inv (w : Word) : (busyWith s0 w).Inv :=
  ⟨(by decide : tiny.Legal), s0_shape, (by decide : (0#3).toNat ≤ 4), by simp [busyWith, Block.accept], by simp [busyWith, Block.accept],
    fun _ => ⟨rfl, rfl, rfl, rfl⟩, fun h => absurd rfl h⟩

/-- The smallest and the largest legal build. -/
theorem witness_ResetSatisfiesTheInvariant :
    ({ db := 1, nlimb := 1, nreg := 1, base := 0 } : Params).Legal ∧
    ({ db := 32, nlimb := 255, nreg := 8, base := 0xC000 } : Params).Legal ∧ tiny.Legal ∧ State.reset.params.Legal := by
  decide

theorem witness_DecodeEncodeRoundTrip : (Instr.add 0 0 0).WellFormed ∧ (Instr.sub 7 7 7).WellFormed := by decide

theorem witness_DecodedWordsEncodeBack : decode 0x00000001#32 = .ok (.add 0 0 0) ∧ decode 0x00077702#32 = .ok (.sub 7 7 7) := by
  decide

/-- Each clause: a reserved bit (the lowest, the highest), then OP 1, OP 2, and the neighbours 0, 3, 15. -/
theorem witness_DecoderFollowsTheOpcodeMap :
    0x00000011#32 &&& 0xFFF888F0#32 ≠ 0#32 ∧ 0x80000001#32 &&& 0xFFF888F0#32 ≠ 0#32 ∧
    (0x00077701#32 &&& 0xFFF888F0#32 = 0#32 ∧ (0x00077701#32).toNat % 16 = 1) ∧
    (0x00077702#32 &&& 0xFFF888F0#32 = 0#32 ∧ (0x00077702#32).toNat % 16 = 2) ∧
    (0x00000000#32 &&& 0xFFF888F0#32 = 0#32 ∧ (0x00000000#32).toNat % 16 = 0) ∧
    (0x0000000F#32 &&& 0xFFF888F0#32 = 0#32 ∧ (0x0000000F#32).toNat % 16 = 15) := by decide

theorem witness_AssemblerSyntaxAndEncodingFormula :
    (Instr.add 7 0 7).WellFormed ∧ ['a', 'D', 'd'].map Char.toLower = ['a', 'd', 'd'] ∧
    ['S', 'u', 'b'].map Char.toLower = ['s', 'u', 'b'] := by decide

theorem witness_ResetTurnGivesTheListedValues : (sched (busyWith s0 1#32) [.reset]).schedule = .reset :: [] := rfl

/-- The invariant holds of an idle state and of one with a command in flight, and both have a next state. -/
theorem witness_StepKeepsTheInvariant :
    s0.Inv ∧ (busyWith s0 0x00010201#32).Inv ∧ (busyWith sFresh 0x00010201#32).Inv ∧
    (nextOf (step s0)).isSome = true ∧ (nextOf (step (busyWith s0 0x00010201#32))).isSome = true :=
  ⟨⟨by decide, s0_shape, by decide⟩, s0_busy_inv _, ⟨by decide, shape_of_all _ _ rfl (by decide), by decide⟩, by decide,
    by decide⟩

theorem witness_CfgIsConstantAndReadOnly :
    s0.params.Legal ∧ step (sched s0 [.engine]) = .next s0 := ⟨by decide, rfl⟩

/-- A negative encoding at the low end, an empty one of each sign, and two registers that differ above `T`. -/
theorem witness_ValueIsTheWeightedLimbSum :
    BigEnc.Digits 26 { sign := true, digits := [0#32, 0#32] } ∧ BigEnc.Digits 32 { sign := true, digits := [0xFFFFFFFF#32] } ∧
    ({ sign := true, digits := [] } : BigEnc).digits = [] ∧
    (let r := wreg false 1#9 [5#32, 0#32]
     let r' := wreg false 1#9 [5#32, 9#32]
     r ≠ r' ∧ r.sign = r'.sign ∧ r.len = r'.len ∧ r.len.toNat ≤ r.limbs.length ∧ r.len.toNat ≤ r'.limbs.length ∧
       ∀ i < r.len.toNat, r.limbs.getD i 0#32 = r'.limbs.getD i 0#32) :=
  ⟨digits_of_all _ _ (by decide), digits_of_all _ _ (by decide), rfl, by decide⟩

/-- A canonical encoding and its value, at the widest digit and at the narrowest. -/
theorem witness_CanonIsTheUniqueCanonicalEncoding :
    (let e : BigEnc := { sign := true, digits := [0xFFFFFFFE#32] }
     e.Digits 32 ∧ e.Canonical 32 ∧ e.val 32 = -2) ∧
    (let e : BigEnc := { sign := false, digits := [0#32, 1#32] }
     e.Digits 1 ∧ e.Canonical 1 ∧ e.val 1 = 2) :=
  ⟨⟨digits_of_all _ _ (by decide), by decide, by decide⟩, digits_of_all _ _ (by decide), by decide, by decide⟩

theorem witness_ClampDropsExactlyTheLeadingSignLimbs :
    (1 ≤ 4 ∧ 4 ≤ 32) ∧ s0.params.Legal ∧ s0.block.Shape s0.params ∧ s0.block.Commits s0.params false 2 0 1 :=
  ⟨by decide, by decide, s0_shape, by decide⟩

/-- Operands of equal and of different lengths; and a case that overflows. -/
theorem witness_ResultNeedsAtMostOneMoreLimb :
    BigEnc.Digits 26 { sign := true, digits := [0#32] } ∧ BigEnc.Digits 26 { sign := false, digits := [] } ∧
    s0.params.Legal ∧ s0.block.Shape s0.params ∧ 1 < s0.params.nreg ∧
    s0.block.OperandOk s0.params 3 ∧ s0.block.OperandOk s0.params 2 ∧
    (nextOf (exec (.sub 1 3 2) s0)).map (fun t => t.block.err) = some 4#3 :=
  ⟨digits_of_all _ _ (by decide), digits_of_all _ _ (by decide), by decide, s0_shape, by decide, by decide, by decide,
    by decide⟩

theorem witness_CarryAlgorithmMeetsTheExactLaw :
    BigEnc.Digits 32 { sign := true, digits := [0xFFFFFFFF#32, 0#32] } ∧ BigEnc.Digits 1 { sign := false, digits := [1#32] } :=
  ⟨digits_of_all _ _ (by decide), digits_of_all _ _ (by decide)⟩

theorem witness_CarryStaysInBounds :
    (1 ≤ 1 ∧ 32 ≤ 32) ∧ BigEnc.Digits 32 { sign := true, digits := [0#32] } ∧
    BigEnc.Digits 32 { sign := false, digits := [0xFFFFFFFF#32] } :=
  ⟨by decide, digits_of_all _ _ (by decide), digits_of_all _ _ (by decide)⟩

/-- The two sources may coincide with the destination, and the least value of the build is an operand. -/
theorem witness_AddCommitsTheExactSum :
    s0.params.Legal ∧ s0.block.Shape s0.params ∧ s0.block.Commits s0.params false 3 0 2 ∧
    s0.block.Commits s0.params false 0 0 0 :=
  ⟨by decide, s0_shape, by decide, by decide⟩

theorem witness_SubCommitsTheExactDifference :
    s0.params.Legal ∧ s0.block.Shape s0.params ∧ s0.block.Commits s0.params true 3 2 3 ∧
    s0.block.Commits s0.params true 2 2 2 :=
  ⟨by decide, s0_shape, by decide, by decide⟩

/-- One command that commits, and one that does not. -/
theorem witness_CommitWritesEveryWordOfRd :
    s0.params.Legal ∧ s0.block.Shape s0.params ∧ s0.block.Commits s0.params false 2 0 1 ∧
    ¬ s0.block.Commits s0.params true 1 3 2 :=
  ⟨by decide, s0_shape, by decide, by decide⟩

/-- Offsets just below and just above the window of `r2`. -/
theorem witness_CompletionLeavesOtherWordsUnchanged :
    (nextOf (exec (addSubInstr false 2 0 1) s0)).isSome = true ∧
    (0x17FC ≠ 0x008 ∧ 0x17FC < hdrOffset 2) ∧ (0x1C00 ≠ 0x008 ∧ hdrOffset (2 + 1) ≤ 0x1C00) := by decide

theorem witness_AliasingUsesTheOldValues :
    s0.params.Legal ∧ s0.block.Shape s0.params ∧ s0.block.Commits s0.params true 1 0 1 ∧
    s0.block.Commits s0.params false 0 0 0 ∧ s0.block.OperandOk s0.params 2 :=
  ⟨by decide, s0_shape, by decide, by decide, by decide⟩

/-- The hypotheses of each clause, in the order of the checks. -/
theorem witness_ChecksReportTheFirstThatApplies :
    ((busyWith s0 0x00000003#32).Completes ∧ decode (busyWith s0 0x00000003#32).block.lastcmd = .error .reservedOp) ∧
    s0.params.nreg ≤ 4 ∧
    (sFresh.block.reg sFresh.params 0).hdrWritten = false ∧
    ((sLong.block.reg sLong.params 3).hdrWritten = true ∧ sLong.params.nlimb < (sLong.block.reg sLong.params 3).len.toNat) ∧
    ((sHalf.block.reg sHalf.params 0).hdrWritten = true ∧ (sHalf.block.reg sHalf.params 0).len.toNat ≤ sHalf.params.nlimb ∧
      (sHalf.block.reg sHalf.params 0).limbWritten.getD 0 false = false) ∧
    (s0.block.OperandOk s0.params 3 ∧ s0.block.OperandOk s0.params 2 ∧
      s0.params.nlimb < (canon s0.params.db (resultOf true s0.params s0.block 3 2)).len) := by decide

/-- Operands that compare less, equal and greater, and a comparison that overflows. -/
theorem witness_SubFlagsCompareTheOperands :
    s0.params.Legal ∧ s0.block.Shape s0.params ∧ 3 < s0.params.nreg ∧ (∀ k < 4, s0.block.OperandOk s0.params k) ∧
    (nextOf (exec (.sub 3 1 0) s0)).map (fun t => t.block.err) = some 0#3 ∧
    (nextOf (exec (.sub 3 3 2) s0)).map (fun t => t.block.err) = some 4#3 :=
  ⟨by decide, s0_shape, by decide, by decide, by decide, by decide⟩

theorem witness_PseudoInstructionsHaveTheirEffects :
    s0.params.Legal ∧ s0.block.Shape s0.params ∧ s0.block.Commits s0.params false 2 0 0 ∧
    (2 < s0.params.nreg ∧ s0.block.OperandOk s0.params 2) ∧
    (s0.block.Commits s0.params true 1 3 0 ∧ (s0.block.reg s0.params 3).val s0.params.db = 0) ∧ (3 : Nat) ≠ 0 :=
  ⟨by decide, s0_shape, by decide, by decide, by decide, by decide⟩

/-- Two builds of different digit widths whose sources denote 15 and 1. -/
theorem witness_ArithmeticIsExactForEveryDigitWidth :
    let s' : State := idleWith { db := 5, nlimb := 1, nreg := 3, base := 0 }
      [wreg false 1#9 [0xF#32], wreg false 1#9 [1#32], wreg false 0#9 [0#32]]
    s0.params.Legal ∧ s0.block.Shape s0.params ∧ s0.block.Commits s0.params false 2 0 1 ∧
    s'.params.Legal ∧ s'.block.Shape s'.params ∧ s'.block.Commits s'.params false 2 0 1 ∧
    (s0.block.reg s0.params 0).val s0.params.db = (s'.block.reg s'.params 0).val s'.params.db ∧
    (s0.block.reg s0.params 1).val s0.params.db = (s'.block.reg s'.params 1).val s'.params.db ∧
    s0.params.nlimb < (canon s0.params.db
      ((s0.block.reg s0.params 3).val s0.params.db - (s0.block.reg s0.params 2).val s0.params.db)).len :=
  ⟨by decide, s0_shape, by decide, by decide, shape_of_all _ _ rfl (by decide), by decide, by decide, by decide, by decide⟩

/-- At the engine's turn, and with no turn left. -/
theorem witness_StepRunsTheDecodedInstruction :
    let s := busyWith s0 0x00010201#32
    s.block.busy = true ∧ s.block.fault = none ∧ decode s.block.lastcmd = .ok (.add 2 0 1) ∧ s.schedule = [] ∧
    (sched s [.engine]).schedule = .engine :: [] := by decide

theorem witness_WithFetchWordRunsTheCommandNext : (Instr.add 7 7 7).WellFormed ∧ (Instr.sub 0 0 0).WellFormed := by decide

theorem witness_IllegalWordsCompleteWithIllegal :
    (busyWith s0 0x00080001#32).Completes ∧ decode (busyWith s0 0x00080001#32).block.lastcmd = .error .reservedBits := by
  decide

/-- A state with a recorded fault and a turn left, and one with none. -/
theorem witness_RecordedFaultIsNeverLeft :
    let s : State := { busyWith sFresh 1#32 with block := (sFresh.block.accept 1#32).recordFault .unwrittenOperand }
    s.block.fault = some .unwrittenOperand ∧ s.block.busy = true ∧ s.schedule = [] ∧
    (nextOf (step (sched s [.engine]))).isSome = true := by decide

theorem witness_CommandInFlightEnds :
    let s := sched (busyWith s0 0x00010201#32) [st32 tiny 0x3FFC 1#32, ld32 tiny 0]
    s.block.busy = true ∧ s.block.fault = none ∧ ∀ u ∈ s.schedule, u.Legal s.params := by
  refine ⟨rfl, rfl, ?_⟩
  intro u hu
  simp only [sched, List.mem_cons, List.not_mem_nil, or_false] at hu
  rcases hu with rfl | rfl
  · exact show Access.Legal tiny (.write .w32 (tiny.base + 0x3FFC) 1#32) from by decide
  · exact show Access.Legal tiny (.read .w32 (tiny.base + 0)) from by decide

theorem witness_FinalStatesKeepTheBlock : s0.Final ∧ ∀ u ∈ s0.schedule, u ≠ .reset := by decide

/-- Written and unwritten words, the last register and limb, and offsets that map to nothing at each edge. -/
theorem witness_BusReadReturnsTheTable :
    s0.params.Legal ∧ (s0.block.reg s0.params 3).hdrWritten = true ∧ (sFresh.block.reg sFresh.params 3).hdrWritten = false ∧
    (s0.block.reg s0.params 3).limbWritten.getD 1 false = true ∧ (sHalf.block.reg sHalf.params 0).limbWritten.getD 1 false = false ∧
    RazWi s0.params 0x010 ∧ RazWi s0.params 0xFFC ∧ RazWi s0.params (limbOffset 3 2) ∧ RazWi s0.params (hdrOffset 4) ∧
    RazWi s0.params 0x3FFC :=
  ⟨by decide, rfl, rfl, rfl, rfl, by decide, by decide, by decide, by decide, by decide⟩

theorem witness_BusWriteWhenIdleFollowsTheTable : s0.params.Legal ∧ s0.block.busy = false ∧ RazWi s0.params 0x3FFC := by decide

theorem witness_BusWriteWhenBusyIsDropped :
    let s := busyWith s0 0x00010201#32
    s.params.Legal ∧ s.block.busy = true ∧ RazWi s.params 0x010 := by decide

/-- `w` stores `T = 3`, one more than NLIMB, in `r3`; `r0` is another written register. -/
theorem witness_HeaderReadsBackWithoutReservedBits :
    s0.params.Legal ∧ s0.block.Shape s0.params ∧ s0.block.busy = false ∧ 3 < s0.params.nreg ∧
    s0.params.nlimb < (0xFFFFFE03#32).toNat % 2 ^ 9 ∧ (s0.block.reg s0.params 0).hdrWritten = true :=
  ⟨by decide, s0_shape, by decide, by decide, by decide, by decide⟩

theorem witness_LimbReadsBackModuloTheDigitBase :
    s0.params.Legal ∧ s0.block.Shape s0.params ∧ s0.block.busy = false ∧ 3 < s0.params.nreg ∧ 1 < s0.params.nlimb :=
  ⟨by decide, s0_shape, by decide, by decide, by decide⟩

/-- A narrow access and a misaligned one, at the window's two ends. -/
theorem witness_IllegalAccessesAreRefused :
    InWindow tiny 0x8000 ∧ InWindow tiny 0xBFFF ∧
    (sched s0 [.host (.read .w16 0x8000)]).schedule = .host (.read .w16 0x8000) :: [] ∧ (0xBFFF - tiny.base) % 4 ≠ 0 := by
  decide

theorem witness_AccessOutsideTheWindowFaults :
    (sched s0 [.host (.read .w32 0xC000)]).schedule = .host (.read .w32 0xC000) :: [] ∧
    0x7FFF < tiny.base ∧ tiny.base + 0x4000 ≤ 0xC000 := by decide

theorem witness_RepeatedWritesAddNothing :
    s0.params.Legal ∧ (busyWith s0 1#32).params.Legal ∧ (busyWith s0 1#32).block.busy = true ∧
    s0.block.busy = false ∧ s0.block.lastcmd = 0#32 := by decide

theorem witness_AccessesWhileBusyDoNotChangeTheResult :
    let s := busyWith s0 0x00010201#32
    s.Inv ∧ s.block.busy = true ∧ s.block.fault = none ∧
    ∀ a ∈ [Access.write .w32 0x9000 7#32, Access.read .w32 0xBFFC], a.Legal s.params :=
  ⟨s0_busy_inv _, rfl, rfl, by decide⟩

/-- The events that the whole-machine rules speak of: acceptance, completion, reset, and a write to STATUS that clears
DONE and BUSYERR. Each has a next state. -/
theorem witness_events :
    (sched s0 [st32 tiny 0x004 0x00010201#32]).Accepts 0x00010201#32 ∧
    (busyWith s0 0x00010201#32).Completes ∧ (sched (busyWith s0 0x00010201#32) [.reset]).Resets ∧
    (sched s0 [st32 tiny 0x008 0x102#32]).HostWrites 0x008 0x102#32 ∧
    (0x102#32).getLsbD 1 = true ∧ (0x102#32).getLsbD 8 = true ∧
    (nextOf (step (sched s0 [st32 tiny 0x004 0x00010201#32]))).isSome = true ∧
    (nextOf (step (busyWith s0 0x00010201#32))).isSome = true ∧
    (nextOf (step (sched (busyWith s0 0x00010201#32) [.reset]))).isSome = true ∧
    (nextOf (step (sched s0 [st32 tiny 0x008 0x102#32]))).isSome = true :=
  ⟨⟨⟨[], rfl⟩, rfl⟩, by decide, rfl, ⟨[], rfl⟩, by decide, by decide, by decide, by decide, by decide, by decide⟩

/-- BUSY rises by acceptance and falls by completion. -/
theorem witness_BusyChangesOnlyByAcceptanceAndCompletion :
    (nextOf (step (sched s0 [st32 tiny 0x004 1#32]))).map (fun t => t.block.busy) = some true ∧ s0.block.busy = false ∧
    (nextOf (step (busyWith s0 1#32))).map (fun t => t.block.busy) = some false := by decide

/-- DONE rises by completion, and falls by a host write of 1 to its bit. -/
theorem witness_DoneIsSetByCompletionsOnly :
    (nextOf (step (busyWith s0 1#32))).map (fun t => (t.block.done, t.block.fault)) = some (true, none) ∧
    (nextOf (step (sched { s0 with block := { s0.block with done := true } } [st32 tiny 0x008 2#32]))).map
      (fun t => t.block.done) = some false := by decide

/-- A completion that commits, and one that fails. -/
theorem witness_FlagsAreThoseOfTheLastCompletion :
    (let s := busyWith s0 0x00010202#32
     s.Inv ∧ s.Completes ∧ decode s.block.lastcmd = .ok (addSubInstr true 2 0 1) ∧ s.block.Commits s.params true 2 0 1) ∧
    (nextOf (step (busyWith s0 0x00000003#32))).map (fun t => (t.block.err, t.block.fault)) = some (1#3, none) :=
  ⟨⟨s0_busy_inv _, by decide, by decide, by decide⟩, by decide⟩

/-- A completion that commits, one that overflows, and an Illegal word. -/
theorem witness_ErrHoldsTheCodeOfTheLastCompletion :
    (busyWith s0 0x00023102#32).Inv ∧ (busyWith s0 0x00023102#32).Completes ∧
    (nextOf (step (busyWith s0 0x00023102#32))).map (fun t => (t.block.err, t.block.fault)) = some (4#3, none) ∧
    (nextOf (step (busyWith s0 0x00010201#32))).map (fun t => t.block.err) = some 0#3 ∧
    decode (busyWith s0 0x00000003#32).block.lastcmd = .error .reservedOp :=
  ⟨s0_busy_inv _, by decide, by decide, by decide, by decide⟩

/-- A dropped write to the last mapped limb sets BUSYERR, and a write of bit 8 clears it. -/
theorem witness_BusyErrIsStickyUntilCleared :
    s0.params.Legal ∧ (3 < s0.params.nreg ∧ 1 < s0.params.nlimb) ∧
    (nextOf (step (sched (busyWith s0 1#32) [st32 tiny (limbOffset 3 1) 5#32]))).map (fun t => t.block.busyerr) = some true ∧
    (nextOf (step (sched { s0 with block := { s0.block with busyerr := true } } [st32 tiny 0x008 0x100#32]))).map
      (fun t => t.block.busyerr) = some false := by decide

/-- LASTCMD is set by acceptance and kept by the completion. -/
theorem witness_LastcmdIsTheLastAcceptedWord :
    (nextOf (step (sched s0 [st32 tiny 0x004 0x80000001#32]))).map (fun t => t.block.lastcmd) = some 0x80000001#32 ∧
    (nextOf (step (busyWith s0 0x80000001#32))).map (fun t => t.block.lastcmd) = some 0x80000001#32 := by decide

/-- The interrupt rises at a completion, and falls when it is disabled. -/
theorem witness_IrqRisesAndFallsOnlyWithItsFields :
    (nextOf (step { busyWith s0 1#32 with block := { (busyWith s0 1#32).block with ie := true } })).map
      (fun t => t.block.irq) = some true ∧
    (nextOf (step (sched { s0 with block := { s0.block with ie := true, done := true } } [st32 tiny 0x00C 0#32]))).map
      (fun t => t.block.irq) = some false := by decide

/-- A completion changes its destination, and a host write its target. -/
theorem witness_OnlyTheseEventsChangeARegister :
    s0.params.Legal ∧
    (nextOf (step (busyWith s0 0x00010201#32))).map (fun t => decide (t.block.reg t.params 2 ≠ s0.block.reg s0.params 2)) =
      some true ∧
    (nextOf (step (sched s0 [st32 tiny (limbOffset 3 1) 5#32]))).map
      (fun t => decide (t.block.reg t.params 3 ≠ s0.block.reg s0.params 3)) = some true := by decide

theorem witness_StatusReadsBusyAloneWhileInFlight :
    (busyWith s0 0x00010201#32).Inv ∧ (busyWith s0 0x00010201#32).block.busy = true :=
  ⟨s0_busy_inv _, rfl⟩

/-- Two states that differ in an unwritten limb. -/
theorem witness_UnwrittenContentsAreUnobservable :
    let s' : State := idleWith tiny
      ({ wreg false 1#9 [9#32, 0#32] with limbWritten := [false, false] } ::
        [wreg false 1#9 [1#32, 0#32], wreg true 2#9 [0#32, 0#32], wreg false 0#9 [0#32, 0#32]])
    sHalf ≠ s' ∧ sHalf.Inv ∧ s'.Inv ∧ sHalf.AgreeOnWritten s' := by
  refine ⟨by decide, ⟨by decide, shape_of_all _ _ rfl (by decide), by decide⟩,
    ⟨by decide, shape_of_all _ _ rfl (by decide), by decide⟩, rfl, rfl, rfl, rfl, rfl, rfl, rfl, rfl, rfl, rfl, rfl, rfl, rfl, rfl, ?_⟩
  intro k hk
  have hk : k < 4 := hk
  have fin : ∀ k < 4, k ≠ 0 → sHalf.block.reg tiny k = (idleWith tiny
      ({ wreg false 1#9 [9#32, 0#32] with limbWritten := [false, false] } ::
        [wreg false 1#9 [1#32, 0#32], wreg true 2#9 [0#32, 0#32], wreg false 0#9 [0#32, 0#32]])).block.reg tiny k := by
    decide
  by_cases h : k = 0
  · subst h
    refine ⟨rfl, rfl, fun _ => ⟨rfl, rfl⟩, fun i hi => ?_⟩
    match i, hi with
    | 0, hi => cases hi
    | 1, hi => cases hi
    | _ + 2, hi => cases hi
  · have e := fin k hk h
    exact e ▸ ⟨rfl, rfl, fun _ => ⟨rfl, rfl⟩, fun _ _ => rfl⟩

end Sys2Proof.Tests
end

section
/-! SUPPORT. The completion step as one function of the block, and the events that a step can be (spec 10_state.md R26-R33,
20_memory.md R46-R48, 40_addsub.md R72): which event does what to the block. -/

namespace Sys2Proof.Machine

/-- The destination that the command in flight names; 0 for an Illegal word, which writes no register. -/
def Block.dest (b : Block) : Nat :=
  match decode b.lastcmd with
  | .ok (.add rd _ _) => rd
  | .ok (.sub rd _ _) => rd
  | .error _ => 0

/-- How the command in flight will end if it completes now: the checks of R83, `ILLEGAL` first. -/
def Block.verdict (p : Params) (b : Block) : Verdict :=
  match decode b.lastcmd with
  | .ok (.add rd rs1 rs2) => b.judge p false rd rs1 rs2
  | .ok (.sub rd rs1 rs2) => b.judge p true rd rs1 rs2
  | .error _ => .error .illegal

theorem Block.dest_of_ok (b : Block) (sub : Bool) (rd rs1 rs2 : Nat)
    (h : decode b.lastcmd = .ok (addSubInstr sub rd rs1 rs2)) : b.dest = rd := by
  cases sub <;> simp [Block.dest, h, addSubInstr]

theorem Block.verdict_of_ok (p : Params) (b : Block) (sub : Bool) (rd rs1 rs2 : Nat)
    (h : decode b.lastcmd = .ok (addSubInstr sub rd rs1 rs2)) : b.verdict p = b.judge p sub rd rs1 rs2 := by
  cases sub <;> simp [Block.verdict, h, addSubInstr]

theorem Block.verdict_of_error (p : Params) (b : Block) (e : DecodeError) (h : decode b.lastcmd = .error e) :
    b.verdict p = .error .illegal := by
  simp [Block.verdict, h]

/-- The completion step does to the block what its verdict says (R72). -/
theorem completeStep_eq (s : State) :
    completeStep s = .next { s with block := s.block.conclude s.params s.block.dest (s.block.verdict s.params) } := by
  obtain ⟨t, ht⟩ := completeStep_isNext s
  rw [ht]
  rcases completeStep_next s t ht with ⟨e, he, rfl⟩ | ⟨sub, rd, rs1, rs2, hi, rfl⟩
  · rw [Block.verdict_of_error _ _ e he]; rfl
  · rw [Block.verdict_of_ok _ _ _ _ _ _ hi, Block.dest_of_ok _ _ _ _ _ hi]; rfl

/-- The checks never answer with the code of success. -/
theorem Block.judge_ne_ok (p : Params) (b : Block) (sub : Bool) (rd rs1 rs2 : Nat) :
    b.judge p sub rd rs1 rs2 ≠ .error .ok := by
  rcases Block.judge_cases p b sub rd rs1 rs2 with
    h | ⟨-, h | ⟨-, h | ⟨-, h | ⟨-, h | h⟩⟩⟩⟩ <;> simp [h.1]

/-- A commit verdict is that of a decoded command that commits, with its exact result. -/
theorem Block.commits_of_verdict (p : Params) (b : Block) (v : Int) (h : b.verdict p = .commit v) :
    ∃ sub rs1 rs2, decode b.lastcmd = .ok (addSubInstr sub b.dest rs1 rs2) ∧
      b.Commits p sub b.dest rs1 rs2 ∧ v = resultOf sub p b rs1 rs2 := by
  cases hd : decode b.lastcmd with
  | error e => rw [b.verdict_of_error p e hd] at h; cases h
  | ok i =>
    obtain ⟨sub, rd, rs1, rs2, rfl⟩ := exists_addSubInstr i
    rw [b.verdict_of_ok p sub rd rs1 rs2 hd] at h
    rw [b.dest_of_ok sub rd rs1 rs2 hd]
    exact ⟨sub, rs1, rs2, rfl, Block.commits_of_judge p b sub rd rs1 rs2 v h⟩

@[simp] theorem ErrCode.code_eq_zero (c : ErrCode) : c.code = 0#3 ↔ c = .ok := by cases c <;> decide

/-- Codes 5 to 7 are never produced (R81). -/
theorem ErrCode.code_le (c : ErrCode) : c.code.toNat ≤ 4 := by cases c <;> decide

@[simp] theorem zFlag_eq_true (v : Int) : zFlag v = true ↔ v = 0 := by simp [zFlag]

@[simp] theorem nFlag_eq_true (v : Int) : nFlag v = true ↔ v < 0 := by simp [nFlag]

/-- The offset of a mapped register-file word: a header or a limb of an existing register (R42). -/
abbrev RegFileOffset (p : Params) (off : Nat) : Prop :=
  ∃ k < p.nreg, off = hdrOffset k ∨ ∃ i < p.nlimb, off = limbOffset k i

/-- Every mapped register-file word lies in the window, at a word-aligned offset. -/
theorem RegFileOffset.inWindow (p : Params) (off : Nat) (hp : p.Legal) (h : RegFileOffset p off) :
    off < windowBytes ∧ off % 4 = 0 := by
  obtain ⟨-, -, -, hlimb, -, hreg, -⟩ := hp
  obtain ⟨k, hk, rfl | ⟨i, hi, rfl⟩⟩ := h
  · unfold hdrOffset windowBytes; omega
  · unfold limbOffset windowBytes; omega

theorem hdrOffset_inWindow (p : Params) (k : Nat) (hp : p.Legal) (hk : k < p.nreg) :
    hdrOffset k < windowBytes ∧ hdrOffset k % 4 = 0 :=
  RegFileOffset.inWindow p _ hp ⟨k, hk, .inl rfl⟩

theorem limbOffset_inWindow (p : Params) (k i : Nat) (hp : p.Legal) (hk : k < p.nreg) (hi : i < p.nlimb) :
    limbOffset k i < windowBytes ∧ limbOffset k i % 4 = 0 :=
  RegFileOffset.inWindow p _ hp ⟨k, hk, .inr ⟨i, hi, rfl⟩⟩

/-- With a command in flight, a write to a mapped register-file word is dropped (R48). -/
theorem Block.writeTarget_regFile_busy (p : Params) (b : Block) (w : Word) (off : Nat) (hp : p.Legal)
    (hb : b.busy = true) (h : RegFileOffset p off) : b.writeTarget p w (targetOf p off) = b.dropWrite := by
  obtain ⟨k, hk, rfl | ⟨i, hi, rfl⟩⟩ := h
  · rw [targetOf_hdrOffset p k hk]; simp [Block.writeTarget, hb]
  · rw [targetOf_limbOffset p k i hk hi hp.2.2.2.1]; simp [Block.writeTarget, hb]

@[simp] theorem Block.writeTarget_cmd_idle (p : Params) (b : Block) (w : Word) (hb : b.busy = false) :
    b.writeTarget p w .cmd = b.accept w := by simp [Block.writeTarget, hb]

@[simp] theorem Block.writeTarget_cmd_busy (p : Params) (b : Block) (w : Word) (hb : b.busy = true) :
    b.writeTarget p w .cmd = b.dropWrite := by simp [Block.writeTarget, hb]

@[simp] theorem Block.writeTarget_status (p : Params) (b : Block) (w : Word) :
    b.writeTarget p w .status = b.clearStatus w := rfl

@[simp] theorem Block.writeTarget_ctrl (p : Params) (b : Block) (w : Word) :
    b.writeTarget p w .ctrl = { b with ie := w.getLsbD 0 } := rfl

section forward
/-! What the step does when a given event is next. -/

theorem step_nil (s : State) (h : s.schedule = []) : step s = idle s := by unfold step; rw [h]

theorem step_cons (s : State) (u : Turn) (rest : List Turn) (h : s.schedule = u :: rest) :
    step s = takeTurn u { s with schedule := rest } := by unfold step; rw [h]

variable {s t : State} {off : Nat} {w : Word}

/-- A completion leaves the block that its verdict says (R72). -/
theorem State.Completes.block_eq (hc : s.Completes) (h : step s = .next t) :
    t.block = s.block.conclude s.params s.block.dest (s.block.verdict s.params) := by
  have hstep : step s = completeStep s.popped := by
    obtain ⟨he, hs | hs⟩ := hc
    · have hp : s.popped = s := by obtain ⟨_, _, sch, _, _⟩ := s; cases hs; rfl
      rw [step_nil s hs, hp, idle, if_pos he]
    · obtain ⟨rest, hs⟩ : ∃ rest, s.schedule = .engine :: rest := by
        cases hsch : s.schedule with
        | nil => simp [hsch] at hs
        | cons u rest => exact ⟨rest, by simpa [hsch] using hs⟩
      rw [step_cons s _ _ hs]
      simp [takeTurn, engineTurn, he, State.popped, hs]
  rw [hstep, completeStep_eq] at h
  cases h
  rfl

/-- A host write leaves the block that `BusWrite` says (R46, R48). -/
theorem State.HostWrites.block_eq (hw : s.HostWrites off w) (hoff : off < windowBytes) (ha : off % 4 = 0)
    (h : step s = .next t) : t.block = s.block.writeTarget s.params w (targetOf s.params off) := by
  obtain ⟨rest, hs⟩ := hw
  rw [step_st32 s off w rest hoff ha hs] at h
  cases h
  rfl

theorem State.Accepts.block_eq (ha : s.Accepts w) (h : step s = .next t) : t.block = s.block.accept w := by
  rw [ha.1.block_eq (by decide) (by decide) h, targetOf_cmd, Block.writeTarget_cmd_idle _ _ _ ha.2]

theorem State.HostWrites.status_block_eq (hw : s.HostWrites 0x008 w) (h : step s = .next t) :
    t.block = s.block.clearStatus w := by
  rw [hw.block_eq (by decide) (by decide) h, targetOf_status, Block.writeTarget_status]

theorem State.Resets.block_eq (hr : s.Resets) (h : step s = .next t) : t.block = Block.afterReset s.params := by
  cases hs : s.schedule with
  | nil => simp [State.Resets, hs] at hr
  | cons u rest =>
    obtain rfl : u = .reset := by simpa [State.Resets, hs] using hr
    rw [step_cons s _ _ hs] at h
    cases h
    rfl

end forward

/-- What the next step of `s` is, and the block `b` that it leaves. -/
inductive StepEvent (s : State) (b : Block) : Prop where
  /-- The engine's completion step (R72). -/
  | completes (hc : s.Completes) (hb : b = s.block.conclude s.params s.block.dest (s.block.verdict s.params))
  /-- Acceptance of a command word (R47). -/
  | accepts (w : Word) (ha : s.Accepts w) (hb : b = s.block.accept w)
  /-- A host write to `CMD` or to the register file that is dropped (R48). -/
  | drops (off : Nat) (w : Word) (hw : s.HostWrites off w) (hbusy : s.block.busy = true)
      (hoff : off = 0x004 ∨ RegFileOffset s.params off) (hb : b = s.block.dropWrite)
  /-- A host write to `STATUS` (R25). -/
  | clears (w : Word) (hw : s.HostWrites 0x008 w) (hb : b = s.block.clearStatus w)
  /-- A host write to `CTRL` (R32). -/
  | enables (w : Word) (hw : s.HostWrites 0x00C w) (hb : b = { s.block with ie := w.getLsbD 0 })
  /-- A host write to a mapped word of register `k` that is performed (R46). -/
  | stores (k off : Nat) (w : Word) (r : BigReg) (hidle : s.block.busy = false) (hk : k < s.params.nreg)
      (hw : s.HostWrites off w) (hoff : off = hdrOffset k ∨ ∃ i < s.params.nlimb, off = limbOffset k i)
      (hr : s.params.Legal → s.block.Shape s.params → r.Shape s.params) (hb : b = s.block.setReg k r)
  /-- The reset input (R96). -/
  | resets (hr : s.Resets) (hb : b = Block.afterReset s.params)
  /-- A host read, a write that is ignored, an engine turn with no step to take, or nothing left to do. -/
  | keeps (hb : b = s.block)

/-- A host write is one of the events. -/
theorem stepEvent_of_hostWrites (s : State) (off : Nat) (w : Word) (hw : s.HostWrites off w) (ha : off % 4 = 0) :
    StepEvent s (s.block.writeTarget s.params w (targetOf s.params off)) := by
  rcases targetOf_cases s.params off ha with
    ⟨-, h⟩ | ⟨rfl, h⟩ | ⟨rfl, h⟩ | ⟨rfl, h⟩ | ⟨k, hk, rfl, h⟩ | ⟨k, i, hk, hi, rfl, h⟩ | h <;> rw [h]
  · exact .keeps rfl
  · cases hb : s.block.busy
    · exact .accepts w ⟨hw, hb⟩ (Block.writeTarget_cmd_idle _ _ _ hb)
    · exact .drops _ w hw hb (.inl rfl) (Block.writeTarget_cmd_busy _ _ _ hb)
  · exact .clears w hw rfl
  · exact .enables w hw rfl
  · cases hb : s.block.busy
    · exact .stores k _ w _ hb hk hw (.inl rfl)
        (fun _ hs => BigReg.storeHdr_shape _ _ w (Block.reg_shape _ _ k hs)) (by simp [Block.writeTarget, hb])
    · exact .drops _ w hw hb (.inr ⟨k, hk, .inl rfl⟩) (by simp [Block.writeTarget, hb])
  · cases hb : s.block.busy
    · exact .stores k _ w _ hb hk hw (.inr ⟨i, hi, rfl⟩)
        (fun hp hs => BigReg.storeLimb_shape _ _ i w hp (Block.reg_shape _ _ k hs)) (by simp [Block.writeTarget, hb])
    · exact .drops _ w hw hb (.inr ⟨k, hk, .inr ⟨i, hi, rfl⟩⟩) (by simp [Block.writeTarget, hb])
  · exact .keeps rfl

/-- A legal write access is a `BusWrite` at its offset. -/
theorem hostWrites_of_legal (s : State) (width : Width) (addr : Nat) (w : Word) (rest : List Turn)
    (hs : s.schedule = .host (.write width addr w) :: rest) (hl : (Access.write width addr w).Legal s.params) :
    s.HostWrites (addr - s.params.base) w := by
  obtain ⟨⟨(hbase : s.params.base ≤ addr), -⟩, rfl, -⟩ := hl
  exact ⟨rest, by rw [hs, st32, Nat.add_sub_cancel' hbase]⟩

/-- Every step is one of the events, and no step changes the build. -/
theorem step_event (s t : State) (h : step s = .next t) : StepEvent s t.block ∧ t.params = s.params := by
  rcases step_cases s t h with ⟨hc, hn⟩ | ⟨a, rest, hs, hl, rfl⟩ | ⟨hr, rfl⟩ | ⟨-, -, rfl⟩ | ⟨-, -, -, rfl⟩
  · rw [completeStep_eq] at hn
    cases hn
    exact ⟨.completes hc rfl, rfl⟩
  · cases a with
    | read width addr =>
      obtain ⟨hp, hb, -⟩ := hostRead_rest (targetOf s.params (addr - s.params.base)) s.popped
      exact ⟨.keeps hb, hp⟩
    | write width addr w =>
      exact ⟨stepEvent_of_hostWrites s _ w (hostWrites_of_legal s width addr w rest hs hl) hl.2.2, rfl⟩
  · exact ⟨.resets hr rfl, rfl⟩
  · exact ⟨.keeps rfl, rfl⟩
  · exact ⟨.keeps rfl, rfl⟩

end Sys2Proof.Machine
end

section
/-! PROOFS. The machine invariant: reset has it and every step keeps it. -/

namespace Sys2Proof.Machine

/-- Settles O6: a reset turn replaces the block by the one after reset. -/
theorem resetTurnGivesTheListedValues : Obligations.ResetTurnGivesTheListedValues := by
  intro s rest hs
  refine ⟨resetTurn { s with schedule := rest }, step_cons s _ _ hs, rfl, rfl, rfl, rfl, rfl, rfl, rfl, rfl, rfl, rfl,
    rfl, rfl, Block.afterReset_shape s.params, fun k hk => ?_⟩
  have hreg : (Block.afterReset s.params).reg s.params k = BigReg.afterReset s.params := by
    simp [Block.reg, List.getD, hk]
  refine ⟨congrArg BigReg.hdrWritten hreg, fun i => ?_⟩
  simp only [resetTurn_block, hreg, BigReg.afterReset_limbWritten, List.getD_eq_getElem?_getD, List.getElem?_replicate]
  split <;> rfl

/-- The status fields after reset satisfy their rules. -/
theorem Block.afterReset_statusInv (p : Params) : (Block.afterReset p).StatusInv := by simp [Block.StatusInv]

/-- Settles O7, for every legal build, of which the reference is one. -/
theorem resetSatisfiesTheInvariant : Obligations.ResetSatisfiesTheInvariant := by
  have hall : ∀ p : Params, p.Legal → (State.resetWith p).Inv := fun p hp =>
    ⟨hp, Block.afterReset_shape p, Block.afterReset_statusInv p⟩
  exact ⟨hall Params.reference (by decide), hall⟩

/-- A completion keeps the register file's shape: what it commits has digits below `DV` and fits NLIMB limbs. -/
theorem Block.conclude_verdict_shape (p : Params) (b : Block) (hp : p.Legal) (h : b.Shape p) :
    (b.conclude p b.dest (b.verdict p)).Shape p := by
  cases hv : b.verdict p with
  | error c => exact h
  | fault r => exact h
  | commit v =>
    obtain ⟨sub, rs1, rs2, -, ⟨-, -, -, hfit⟩, rfl⟩ := Block.commits_of_verdict p b v hv
    have hr := BigReg.committed_shape p _ (canon_digits p.db (resultOf sub p b rs1 rs2) hp.2.1) hfit
    exact Block.setReg_shape p b b.dest _ h hr

/-- A completion that is enabled leaves the status fields in order, however it ends. -/
theorem Block.conclude_statusInv (p : Params) (b : Block) (rd : Nat) (v : Verdict) (he : b.Enabled) (h : b.StatusInv) :
    (b.conclude p rd v).StatusInv := by
  obtain ⟨hbusy, hfault⟩ := he
  cases v with
  | error c => simp [Block.StatusInv, hfault, ErrCode.code_le]
  | fault r =>
    obtain ⟨herr, hzn, hok, hfly, -⟩ := h
    exact ⟨herr, hzn, hok, hfly, fun _ => hbusy⟩
  | commit v =>
    refine ⟨by simp, ?_, by simp, by simp, by simp [hfault]⟩
    simp only [Block.conclude_commit, Block.finishOk_z, Block.finishOk_n, zFlag_eq_true, nFlag_eq_true]
    omega

/-- Settles O8, event by event. -/
theorem stepKeepsTheInvariant : Obligations.StepKeepsTheInvariant := by
  intro s t hinv h
  obtain ⟨hev, hp⟩ := step_event s t h
  obtain ⟨hlegal, hshape, hstatus⟩ := hinv
  have hst := hstatus
  obtain ⟨herr, hzn, hok, hfly, hfault⟩ := hst
  rw [State.Inv, hp]
  refine ⟨hlegal, ?_⟩
  cases hev with
  | completes hc hb =>
    rw [hb]
    exact ⟨Block.conclude_verdict_shape _ _ hlegal hshape, Block.conclude_statusInv _ _ _ _ hc.1 hstatus⟩
  | accepts w ha hb => rw [hb]; exact ⟨hshape, by simp [Block.StatusInv]⟩
  | drops off w hw hbusy hoff hb => rw [hb]; exact ⟨hshape, hstatus⟩
  | clears w hw hb =>
    rw [hb]
    refine ⟨hshape, herr, hzn, hok, fun hbusy => ?_, hfault⟩
    obtain ⟨hdone, hrest⟩ := hfly hbusy
    exact ⟨by simp [hdone], hrest⟩
  | enables w hw hb => rw [hb]; exact ⟨hshape, hstatus⟩
  | stores k off w r hidle hk hw hoff hr hb =>
    rw [hb]
    exact ⟨Block.setReg_shape _ _ k r hshape (hr hlegal hshape), hstatus⟩
  | resets hr hb => rw [hb]; exact ⟨Block.afterReset_shape _, Block.afterReset_statusInv _⟩
  | keeps hb => rw [hb]; exact ⟨hshape, hstatus⟩

end Sys2Proof.Machine
end

section
/-! PROOFS. The control and status registers under every step (spec 10_state.md R24, R26-R33). -/

namespace Sys2Proof.Machine

@[simp] theorem Block.conclude_lastcmd (p : Params) (b : Block) (rd : Nat) (v : Verdict) :
    (b.conclude p rd v).lastcmd = b.lastcmd := (Block.conclude_rest p b rd v).1

@[simp] theorem Block.conclude_busyerr (p : Params) (b : Block) (rd : Nat) (v : Verdict) :
    (b.conclude p rd v).busyerr = b.busyerr := (Block.conclude_rest p b rd v).2.1

@[simp] theorem Block.conclude_ie (p : Params) (b : Block) (rd : Nat) (v : Verdict) :
    (b.conclude p rd v).ie = b.ie := (Block.conclude_rest p b rd v).2.2.1

@[simp] theorem Block.dropWrite_irq (b : Block) : b.dropWrite.irq = b.irq := rfl

@[simp] theorem Block.setReg_irq (b : Block) (k : Nat) (r : BigReg) : (b.setReg k r).irq = b.irq := rfl

/-- A completion that records no model fault clears BUSY and sets DONE (R26, R27). -/
theorem Block.conclude_busy_done (p : Params) (b : Block) (rd : Nat) (v : Verdict)
    (h : (b.conclude p rd v).fault = none) : (b.conclude p rd v).busy = false ∧ (b.conclude p rd v).done = true := by
  cases v with
  | error c => exact ⟨rfl, rfl⟩
  | fault r => cases h
  | commit v => exact ⟨rfl, rfl⟩

/-- Settles O41, event by event: what BUSY is after each. -/
theorem busyChangesOnlyByAcceptanceAndCompletion : Obligations.BusyChangesOnlyByAcceptanceAndCompletion := by
  intro s t h
  obtain ⟨hev, -⟩ := step_event s t h
  refine ⟨fun w ha => ?_, fun hc hf => ?_, fun hr => ?_, fun h0 h1 => ?_, fun h1 h0 => ?_⟩
  · rw [ha.block_eq h]; rfl
  · rw [hc.block_eq h] at hf ⊢
    exact (Block.conclude_busy_done _ _ _ _ hf).1
  · rw [hr.block_eq h]; rfl
  · cases hev with
    | accepts w ha hb => exact ⟨w, ha⟩
    | completes hc hb => rw [hc.1.1] at h0; cases h0
    | _ => simp_all
  · cases hev with
    | completes hc hb => exact .inl hc
    | resets hr hb => exact .inr hr
    | _ => simp_all

/-- Settles O42, event by event. -/
theorem doneIsSetByCompletionsOnly : Obligations.DoneIsSetByCompletionsOnly := by
  intro s t h
  obtain ⟨hev, -⟩ := step_event s t h
  refine ⟨fun hc hf => ?_, fun h0 h1 => ?_, fun w ha => ?_, fun w hw hbit => ?_, fun h1 h0 => ?_, fun hd hi => ?_⟩
  · rw [hc.block_eq h] at hf ⊢
    exact (Block.conclude_busy_done _ _ _ _ hf).2
  · cases hev with
    | completes hc hb => exact hc
    | _ => simp_all
  · rw [ha.block_eq h]; rfl
  · rw [hw.status_block_eq h]; simp [hbit]
  · cases hev with
    | completes hc hb =>
      rw [hb] at h0
      cases hv : s.block.verdict s.params <;> simp [hv, h1] at h0
    | accepts w ha hb => exact .inl ⟨w, ha⟩
    | clears w hw hb =>
      have hbit : w.getLsbD 1 = true := by simpa [hb, h1] using h0
      exact .inr (.inl ⟨w, hw, hbit⟩)
    | resets hr hb => exact .inr (.inr hr)
    | _ => simp_all
  · simp [Block.irq, hd, hi]

/-- Only a completion, acceptance and reset touch Z, N and ERR (R28-R30). -/
theorem flags_unchanged (s : State) (b : Block) (hev : StepEvent s b) (hc : ¬ s.Completes) (ha : ∀ w, ¬ s.Accepts w)
    (hr : ¬ s.Resets) : b.z = s.block.z ∧ b.n = s.block.n ∧ b.err = s.block.err := by
  cases hev with
  | completes hc' hb => exact absurd hc' hc
  | accepts w ha' hb => exact absurd ha' (ha w)
  | resets hr' hb => exact absurd hr' hr
  | _ => simp_all

/-- The block after the completion of a command that commits (R72). -/
theorem State.Completes.commit_block_eq {s t : State} {sub : Bool} {rd rs1 rs2 : Nat} (hc : s.Completes)
    (hi : decode s.block.lastcmd = .ok (addSubInstr sub rd rs1 rs2)) (hcom : s.block.Commits s.params sub rd rs1 rs2)
    (h : step s = .next t) : t.block = s.block.finishOk s.params rd (resultOf sub s.params s.block rs1 rs2) := by
  rw [hc.block_eq h, Block.verdict_of_ok _ _ _ _ _ _ hi, Block.dest_of_ok _ _ _ _ _ hi,
    Block.judge_commit _ _ _ _ _ _ hcom, Block.conclude_commit]

/-- The destination of a commit holds the committed result. -/
theorem Block.reg_finishOk_self (p : Params) (b : Block) (rd : Nat) (v : Int) (h : rd < b.regs.length) :
    (b.finishOk p rd v).reg p rd = BigReg.committed p (canon p.db v) :=
  Block.reg_setReg_self p b rd _ h

/-- Settles O43: the flags of a commit are those of the value that the verdict carries. -/
theorem flagsAreThoseOfTheLastCompletion : Obligations.FlagsAreThoseOfTheLastCompletion := by
  intro s t hinv h
  obtain ⟨hev, -⟩ := step_event s t h
  refine ⟨fun sub rd rs1 rs2 hc hi hcom => ?_, fun hc hf he => ?_, fun w ha => ?_, fun hc ha hr => ?_, ?_⟩
  · have hrd : rd < s.block.regs.length := by rw [hinv.2.1.1]; exact hcom.1
    rw [hc.commit_block_eq hi hcom h, Block.reg_finishOk_self _ _ _ _ hrd]
    exact ⟨zFlag_eq_true _, nFlag_eq_true _, rfl⟩
  · rw [hc.block_eq h] at hf he ⊢
    cases hv : s.block.verdict s.params with
    | error c => exact ⟨rfl, rfl⟩
    | fault r => rw [hv] at hf; cases hf
    | commit v => rw [hv] at he; exact absurd rfl he
  · rw [ha.block_eq h]; exact ⟨rfl, rfl⟩
  · obtain ⟨hz, hn, -⟩ := flags_unchanged s t.block hev hc ha hr
    exact ⟨hz, hn⟩
  · obtain ⟨-, -, -, hzn, -⟩ := stepKeepsTheInvariant s t hinv h
    exact hzn

/-- The completion of a decoded command leaves ERR at 0 exactly when the command commits (R81, R83). -/
theorem Block.conclude_judge_err (p : Params) (b : Block) (sub : Bool) (rd rs1 rs2 : Nat)
    (hf : (b.conclude p rd (b.judge p sub rd rs1 rs2)).fault = none) :
    (b.conclude p rd (b.judge p sub rd rs1 rs2)).err = 0#3 ↔ b.Commits p sub rd rs1 rs2 := by
  constructor
  · intro he
    cases hv : b.judge p sub rd rs1 rs2 with
    | error c =>
      rw [hv, Block.conclude_error, Block.finishErr_err, ErrCode.code_eq_zero] at he
      exact absurd (he ▸ hv) (Block.judge_ne_ok p b sub rd rs1 rs2)
    | fault r => rw [hv] at hf; cases hf
    | commit v => exact (Block.commits_of_judge p b sub rd rs1 rs2 v hv).1
  · intro hcom
    rw [Block.judge_commit p b sub rd rs1 rs2 hcom]
    rfl

/-- Settles O44: the verdict of the completion decides the code. -/
theorem errHoldsTheCodeOfTheLastCompletion : Obligations.ErrHoldsTheCodeOfTheLastCompletion := by
  intro s t hinv h
  obtain ⟨hev, -⟩ := step_event s t h
  refine ⟨fun sub rd rs1 rs2 hc hi hf => ?_, fun hc he => ?_, fun w ha => ?_, fun hc ha hr => ?_, ?_⟩
  · rw [hc.block_eq h, Block.verdict_of_ok _ _ _ _ _ _ hi, Block.dest_of_ok _ _ _ _ _ hi] at hf ⊢
    exact Block.conclude_judge_err _ _ _ _ _ _ hf
  · obtain ⟨e, he⟩ := he
    rw [hc.block_eq h, Block.verdict_of_error _ _ e he]
    rfl
  · rw [ha.block_eq h]; rfl
  · obtain ⟨-, -, herr⟩ := flags_unchanged s t.block hev hc ha hr
    exact herr
  · obtain ⟨-, -, herr, -⟩ := stepKeepsTheInvariant s t hinv h
    exact herr

/-- Settles O45: the only event that sets BUSYERR is a dropped write. -/
theorem busyErrIsStickyUntilCleared : Obligations.BusyErrIsStickyUntilCleared := by
  intro s t hp h
  obtain ⟨hev, -⟩ := step_event s t h
  refine ⟨fun off w hw hbusy hoff => ?_, fun h0 h1 => ?_, fun h1 h0 => ?_, fun w hw hbit => ?_⟩
  · rcases hoff with rfl | hoff
    · rw [hw.block_eq (by decide) (by decide) h, targetOf_cmd, Block.writeTarget_cmd_busy _ _ _ hbusy]; rfl
    · obtain ⟨hwin, halign⟩ := RegFileOffset.inWindow _ _ hp hoff
      rw [hw.block_eq hwin halign h, Block.writeTarget_regFile_busy _ _ _ _ hp hbusy hoff]; rfl
  · cases hev with
    | drops off w hw hbusy hoff hb => exact ⟨hbusy, off, w, hw, hoff⟩
    | _ => simp_all
  · cases hev with
    | clears w hw hb =>
      have hbit : w.getLsbD 8 = true := by simpa [hb, h1] using h0
      exact .inl ⟨w, hw, hbit⟩
    | resets hr hb => exact .inr hr
    | _ => simp_all
  · rw [hw.status_block_eq h]; simp [hbit]

/-- A read of a word that has a value returns it and changes nothing else (R45). -/
theorem State.readsAs_of_readTarget (s : State) (off : Nat) (w : Word) (hoff : off < windowBytes) (ha : off % 4 = 0)
    (h : s.block.readTarget s.params (targetOf s.params off) = some w) : s.ReadsAs off w := by
  intro rest
  exact (step_ld32 { s with schedule := ld32 s.params off :: rest } off rest hoff ha rfl).trans
    (congrArg Host.Outcome.next (hostRead_some _ { s with schedule := rest } w h))

/-- A write leaves the block that `BusWrite` says and changes nothing else (R46, R48). -/
theorem State.writesTo_writeTarget (s : State) (off : Nat) (w : Word) (hoff : off < windowBytes) (ha : off % 4 = 0) :
    s.WritesTo off w (s.block.writeTarget s.params w (targetOf s.params off)) := by
  intro rest
  rw [step_st32 { s with schedule := st32 s.params off w :: rest } off w rest hoff ha rfl]
  rfl

/-- Settles O46: no event but acceptance and reset writes LASTCMD. -/
theorem lastcmdIsTheLastAcceptedWord : Obligations.LastcmdIsTheLastAcceptedWord := by
  refine ⟨fun s t h => ?_, fun s => ?_, fun p => rfl⟩
  · obtain ⟨hev, -⟩ := step_event s t h
    refine ⟨fun w ha => ?_, fun ha hr => ?_, fun hr => ?_⟩
    · rw [ha.block_eq h]; exact ⟨rfl, rfl⟩
    · cases hev with
      | accepts w ha' hb => exact absurd ha' (ha w)
      | resets hr' hb => exact absurd hr' hr
      | _ => simp_all
    · rw [hr.block_eq h]; rfl
  · exact s.readsAs_of_readTarget 0x004 _ (by decide) (by decide) rfl

theorem Block.irq_eq_true (b : Block) : b.irq = true ↔ b.ie = true ∧ b.done = true := by simp [Block.irq]

/-- Settles O47: outside the listed events both IE and DONE stay. -/
theorem irqRisesAndFallsOnlyWithItsFields : Obligations.IrqRisesAndFallsOnlyWithItsFields := by
  intro s t h
  obtain ⟨hev, -⟩ := step_event s t h
  refine ⟨t.block.irq_eq_true, fun h0 h1 => ?_, fun h1 h0 => ?_⟩
  · obtain ⟨hie, hdone⟩ := t.block.irq_eq_true.mp h1
    cases hev with
    | completes hc hb => exact .inl hc
    | enables w hw hb =>
      rw [hb] at hie hdone
      exact .inr ⟨w, hw, hie, hdone⟩
    | accepts w ha hb => rw [hb] at hdone; cases hdone
    | clears w hw hb =>
      rw [hb, Block.clearStatus_done, Bool.and_eq_true] at hdone
      rw [hb, Block.clearStatus_ie] at hie
      simp [Block.irq, hie, hdone.1] at h0
    | resets hr hb => rw [hb] at hdone; cases hdone
    | _ => simp_all
  · obtain ⟨hie, hdone⟩ := s.block.irq_eq_true.mp h1
    cases hev with
    | completes hc hb =>
      cases hv : s.block.verdict s.params <;> simp [hb, hv, Block.irq, hie, hdone] at h0
    | accepts w ha hb => exact .inl ⟨w, ha⟩
    | clears w hw hb => exact .inr (.inl ⟨w, hw, by simpa [hb, Block.irq, hie, hdone] using h0⟩)
    | enables w hw hb => exact .inr (.inr (.inl ⟨w, hw, by simpa [hb, Block.irq, hdone] using h0⟩))
    | resets hr hb => exact .inr (.inr (.inr hr))
    | _ => simp_all

end Sys2Proof.Machine
end

section
/-! PROOFS. CFG, CTRL, header and limb words as the host reads and writes them, and the value of a BigInt (spec
10_state.md R18-R20, R23, R32). -/

namespace Sys2Proof.Machine

/-- Two fields side by side, as a number. -/
theorem toNat_append_add {m n : Nat} (x : BitVec m) (y : BitVec n) : (x ++ y).toNat = x.toNat * 2 ^ n + y.toNat := by
  rw [BitVec.toNat_append, ← Nat.shiftLeft_add_eq_or_of_lt y.isLt, Nat.shiftLeft_eq]

/-- `CFG` as a number, for every legal build (R23). -/
theorem cfgWord_eq (p : Params) (hp : p.Legal) :
    cfgWord p = BitVec.ofNat 32 (0x01 * 2 ^ 24 + p.nlimb * 2 ^ 16 + p.nreg * 2 ^ 8 + p.db) := by
  obtain ⟨-, hdb, -, hlimb, -, hreg, -⟩ := hp
  apply BitVec.eq_of_toNat_eq
  simp only [cfgWord, toNat_append_add, BitVec.toNat_ofNat]
  omega

/-- Settles O9: the packed word as a sum of its fields. -/
theorem cfgIsConstantAndReadOnly : Obligations.CfgIsConstantAndReadOnly := by
  refine ⟨fun s hp => ⟨?_, fun w => ?_⟩, fun s t h => (step_event s t h).2, ?_⟩
  · exact s.readsAs_of_readTarget 0x000 _ (by decide) (by decide) (congrArg some (cfgWord_eq s.params hp))
  · exact s.writesTo_writeTarget 0x000 w (by decide) (by decide)
  · exact State.reset.readsAs_of_readTarget 0x000 _ (by decide) (by decide) (by decide)

/-- `CTRL` reads as IE alone (R32). -/
theorem Block.ctrlWord_eq (b : Block) : b.ctrlWord = BitVec.ofNat 32 b.ie.toNat := by
  unfold Block.ctrlWord
  cases b.ie <;> decide

/-- Settles O34: `BusWrite` at CTRL sets IE whatever BUSY is. -/
theorem ctrlHoldsOnlyTheInterruptEnable : Obligations.CtrlHoldsOnlyTheInterruptEnable := by
  refine ⟨fun s w => ⟨_, s.writesTo_writeTarget 0x00C w (by decide) (by decide), rfl, ?_⟩, fun p => ?_⟩
  · have hbit : (w.getLsbD 0).toNat = w.toNat % 2 := by
      rw [BitVec.getLsbD, Nat.testBit_zero]
      rcases Nat.mod_two_eq_zero_or_one w.toNat with h | h <;> simp [h]
    refine State.readsAs_of_readTarget _ 0x00C _ (by decide) (by decide) ?_
    rw [targetOf_ctrl, Block.readTarget, Block.ctrlWord_eq, ← hbit]
    rfl
  · exact State.readsAs_of_readTarget _ 0x00C _ (by decide) (by decide)
      (congrArg some (Block.afterReset p).ctrlWord_eq)

/-- The header bits that exist: 31 and 8:0 (R19). -/
theorem getLsbD_hdrMask : ∀ i : Fin 32, (0x800001FF#32).getLsbD i = decide (i.val < 9 ∨ i.val = 31) := by decide

/-- A header word stored reads back without its reserved bits (R19). -/
theorem BigReg.hdrWord_storeHdr (r : BigReg) (w : Word) : (r.storeHdr w).hdrWord = w &&& 0x800001FF#32 := by
  refine BitVec.eq_of_getLsbD_eq fun i hi => ?_
  rw [BitVec.getLsbD_and, getLsbD_hdrMask ⟨i, hi⟩]
  simp only [BigReg.hdrWord, BigReg.storeHdr_sign, BigReg.storeHdr_len, BitVec.getLsbD_append,
    BitVec.getLsbD_setWidth, BitVec.getLsbD_zero, BitVec.getLsbD_ofBool]
  rcases (by omega : i < 9 ∨ (9 ≤ i ∧ i < 31) ∨ i = 31) with h | ⟨h, h'⟩ | rfl
  · simp [h]
  · simp [Nat.not_lt.mpr h, show i - 9 < 22 by omega, show i ≠ 31 by omega]
  · simp

theorem Block.writeTarget_hdr_idle (p : Params) (b : Block) (w : Word) (k : Nat) (hb : b.busy = false) :
    b.writeTarget p w (.hdr k) = b.setReg k ((b.reg p k).storeHdr w) := by simp [Block.writeTarget, hb]

theorem Block.writeTarget_limb_idle (p : Params) (b : Block) (w : Word) (k i : Nat) (hb : b.busy = false) :
    b.writeTarget p w (.limb k i) = b.setReg k ((b.reg p k).storeLimb p i w) := by simp [Block.writeTarget, hb]

/-- A header that is written reads as its word (R19, R45). -/
theorem State.readsAs_hdr (s : State) (k : Nat) (hp : s.params.Legal) (hk : k < s.params.nreg)
    (hw : (s.block.reg s.params k).hdrWritten = true) : s.ReadsAs (hdrOffset k) (s.block.reg s.params k).hdrWord := by
  obtain ⟨hwin, halign⟩ := hdrOffset_inWindow s.params k hp hk
  refine s.readsAs_of_readTarget _ _ hwin halign ?_
  rw [targetOf_hdrOffset _ _ hk, Block.readTarget, if_pos hw]

/-- A limb that is written reads as it is stored (R20, R45). -/
theorem State.readsAs_limb (s : State) (k i : Nat) (hp : s.params.Legal) (hk : k < s.params.nreg)
    (hi : i < s.params.nlimb) (hw : (s.block.reg s.params k).limbWritten.getD i false = true) :
    s.ReadsAs (limbOffset k i) ((s.block.reg s.params k).limbs.getD i 0#32) := by
  obtain ⟨hwin, halign⟩ := limbOffset_inWindow s.params k i hp hk hi
  refine s.readsAs_of_readTarget _ _ hwin halign ?_
  rw [targetOf_limbOffset _ _ _ hk hi hp.2.2.2.1, Block.readTarget, if_pos hw]

/-- A header write with no command in flight stores the word (R46). -/
theorem State.writesTo_hdr (s : State) (w : Word) (k : Nat) (hp : s.params.Legal) (hb : s.block.busy = false)
    (hk : k < s.params.nreg) :
    s.WritesTo (hdrOffset k) w (s.block.setReg k ((s.block.reg s.params k).storeHdr w)) := by
  obtain ⟨hwin, halign⟩ := hdrOffset_inWindow s.params k hp hk
  rw [← Block.writeTarget_hdr_idle _ _ _ _ hb, ← targetOf_hdrOffset _ _ hk]
  exact s.writesTo_writeTarget _ w hwin halign

/-- A limb write with no command in flight stores the low `DB` bits (R46). -/
theorem State.writesTo_limb (s : State) (w : Word) (k i : Nat) (hp : s.params.Legal) (hb : s.block.busy = false)
    (hk : k < s.params.nreg) (hi : i < s.params.nlimb) :
    s.WritesTo (limbOffset k i) w (s.block.setReg k ((s.block.reg s.params k).storeLimb s.params i w)) := by
  obtain ⟨hwin, halign⟩ := limbOffset_inWindow s.params k i hp hk hi
  rw [← Block.writeTarget_limb_idle _ _ _ _ _ hb, ← targetOf_limbOffset _ _ _ hk hi hp.2.2.2.1]
  exact s.writesTo_writeTarget _ w hwin halign

/-- A source whose length is beyond NLIMB makes the verdict `BAD_LEN`, with the indices and both headers in order (R83). -/
theorem Block.judge_badLen (p : Params) (b : Block) (sub : Bool) (rd rs1 rs2 : Nat)
    (hrd : rd < p.nreg) (h1 : rs1 < p.nreg) (h2 : rs2 < p.nreg) (hw1 : (b.reg p rs1).hdrWritten = true)
    (hw2 : (b.reg p rs2).hdrWritten = true)
    (hlen : p.nlimb < (b.reg p rs1).len.toNat ∨ p.nlimb < (b.reg p rs2).len.toNat) :
    b.judge p sub rd rs1 rs2 = .error .badLen := by
  simp [Block.judge, hw1, hw2, hlen, Nat.not_le.mpr hrd, Nat.not_le.mpr h1, Nat.not_le.mpr h2]

/-- The completion that this verdict makes. -/
theorem exec_err_badLen (sub : Bool) (rd rs1 rs2 : Nat) (s : State)
    (hv : s.block.judge s.params sub rd rs1 rs2 = .error .badLen) :
    ∃ t, exec (addSubInstr sub rd rs1 rs2) s = .next t ∧ t.block.err = 3#3 :=
  ⟨_, exec_addSubInstr sub rd rs1 rs2 s, by rw [completeAddSub_block, hv]; rfl⟩

/-- After a header write with no command in flight the register holds the stored word. -/
theorem State.exists_writesTo_hdr (s : State) (w : Word) (k : Nat) (hp : s.params.Legal)
    (hshape : s.block.Shape s.params) (hb : s.block.busy = false) (hk : k < s.params.nreg) :
    ∃ b, s.WritesTo (hdrOffset k) w b ∧ b.reg s.params k = (s.block.reg s.params k).storeHdr w :=
  ⟨_, s.writesTo_hdr w k hp hb hk, Block.reg_setReg_self _ _ k _ (by rw [hshape.1]; exact hk)⟩

/-- After a limb write with no command in flight the register holds the stored word. -/
theorem State.exists_writesTo_limb (s : State) (w : Word) (k i : Nat) (hp : s.params.Legal)
    (hshape : s.block.Shape s.params) (hb : s.block.busy = false) (hk : k < s.params.nreg) (hi : i < s.params.nlimb) :
    ∃ b, s.WritesTo (limbOffset k i) w b ∧ b.reg s.params k = (s.block.reg s.params k).storeLimb s.params i w :=
  ⟨_, s.writesTo_limb w k i hp hb hk hi, Block.reg_setReg_self _ _ k _ (by rw [hshape.1]; exact hk)⟩

/-- Settles O35: the stored length alone decides the verdict once the headers are written. -/
theorem headerReadsBackWithoutReservedBits : Obligations.HeaderReadsBackWithoutReservedBits := by
  intro s w k hp hshape hbusy hk
  obtain ⟨b, hwrites, hreg⟩ := s.exists_writesTo_hdr w k hp hshape hbusy hk
  have hmark : (b.reg s.params k).hdrWritten = true := by rw [hreg]; rfl
  refine ⟨b, hwrites, ?_, fun sub rd q hlong hrd hq hqmark => ?_⟩
  · rw [← BigReg.hdrWord_storeHdr (s.block.reg s.params k) w, ← hreg]
    exact State.readsAs_hdr { s with block := b } k hp hk hmark
  · have hlen : s.params.nlimb < (b.reg s.params k).len.toNat := by
      rw [hreg, BigReg.storeHdr_len, BitVec.toNat_setWidth]; exact hlong
    obtain ⟨t, ht, hterr⟩ := exec_err_badLen sub rd k q { s with block := b }
      (Block.judge_badLen _ _ sub rd k q hrd hk hq hmark hqmark (.inl hlen))
    obtain ⟨u, hu, huerr⟩ := exec_err_badLen sub rd q k { s with block := b }
      (Block.judge_badLen _ _ sub rd q k hrd hq hk hqmark hmark (.inr hlen))
    exact ⟨t, u, ht, hterr, hu, huerr⟩

/-- A word masked to the limb bits is its low `DB` bits (R20). -/
theorem and_digitMask (p : Params) (w : Word) (h : p.db ≤ 32) :
    w &&& digitMask p = BitVec.ofNat 32 (w.toNat % 2 ^ p.db) := by
  apply BitVec.eq_of_toNat_eq
  rw [toNat_and_digitMask p w h, BitVec.toNat_ofNat,
    Nat.mod_eq_of_lt (lt_of_le_of_lt (Nat.mod_le _ _) w.isLt)]

/-- Settles O36: the stored limb is the word masked to `DB` bits. -/
theorem limbReadsBackModuloTheDigitBase : Obligations.LimbReadsBackModuloTheDigitBase := by
  intro s w k i hp hshape hbusy hk hi
  obtain ⟨hlimbs, hmarks, -⟩ := Block.reg_shape s.params s.block k hshape
  obtain ⟨b, hwrites, hreg⟩ := s.exists_writesTo_limb w k i hp hshape hbusy hk hi
  have hmark : (b.reg s.params k).limbWritten.getD i false = true := by rw [hreg]; simp [List.getD, hmarks, hi]
  have hlimb : (b.reg s.params k).limbs.getD i 0#32 = w &&& digitMask s.params := by
    rw [hreg]; simp [List.getD, hlimbs, hi]
  refine ⟨b, hwrites, ?_, ?_, fun j hj => ?_⟩
  · rw [← and_digitMask _ w hp.2.1, ← hlimb]
    exact State.readsAs_limb { s with block := b } k i hp hk hi hmark
  · rw [hlimb, toNat_and_digitMask _ w hp.2.1]
    exact Nat.le_sub_one_of_lt (Nat.mod_lt _ (by positivity))
  · rw [hreg]
    simp [List.getD, List.getElem?_set_ne hj.symm]

/-- `limbSum` is the weighted sum of R18. -/
theorem limbSum_eq_sum (db : Nat) (ds : List Word) (k : Nat) :
    (limbSum db ds k : Int) = ∑ i ∈ Finset.range k, ((ds.getD i 0#32).toNat : Int) * 2 ^ (db * i) := by
  induction k with
  | zero => rfl
  | succ k ih => rw [limbSum_succ, Finset.sum_range_succ, ← ih]; push_cast; rfl

/-- With `S = 1` a value lies in `[-2^(DB*T), -1]` (R18). -/
theorem BigEnc.val_of_sign (db : Nat) (e : BigEnc) (hs : e.sign = true) (hd : e.Digits db) :
    -(2 ^ (db * e.len)) ≤ e.val db ∧ e.val db ≤ -1 := by
  have hlt : limbSum db e.digits e.len < 2 ^ (db * e.len) := limbSum_lt db _ _ fun i _ => e.getD_lt db hd i
  zify at hlt
  simp only [BigEnc.val, hs, signWord, if_true]
  constructor <;> omega

/-- A further limb equal to the sign limb stands for the same integer (R18). -/
theorem BigEnc.val_snoc_signLimb (db : Nat) (e : BigEnc) (hdb : db ≤ 32) :
    BigEnc.val db { sign := e.sign, digits := e.digits ++ [signLimb db e.sign] } = e.val db := by
  have hlow : limbSum db (e.digits ++ [signLimb db e.sign]) e.len = limbSum db e.digits e.len :=
    limbSum_congr db _ _ _ fun i hi => List.getD_append _ _ _ i hi
  have htop : (e.digits ++ [signLimb db e.sign]).getD e.len 0#32 = signLimb db e.sign := by
    simp [List.getD, BigEnc.len]
  have hlen : BigEnc.len { sign := e.sign, digits := e.digits ++ [signLimb db e.sign] } = e.len + 1 := by
    simp [BigEnc.len]
  have hpow : (2 : Int) ^ (db * (e.len + 1)) = 2 ^ db * 2 ^ (db * e.len) := by rw [Nat.mul_succ, pow_add, mul_comm]
  have hpos : 1 ≤ 2 ^ db := Nat.one_le_two_pow
  simp only [BigEnc.val, hlen, limbSum_succ, hlow, htop, signLimb_toNat db e.sign hdb, hpow]
  cases e.sign
  · simp [signWord]
  · simp only [signWord, if_true]
    push_cast [hpos]
    ring

/-- Only the sign, the length and the limbs below it make the value of a register (R18). -/
theorem BigReg.val_congr (db : Nat) (r r' : BigReg) (hs : r.sign = r'.sign) (hl : r.len = r'.len)
    (h : r.len.toNat ≤ r.limbs.length) (h' : r.len.toNat ≤ r'.limbs.length)
    (hd : ∀ i < r.len.toNat, r.limbs.getD i 0#32 = r'.limbs.getD i 0#32) : r.val db = r'.val db := by
  have henc : r.enc = r'.enc := by
    simp only [BigReg.enc, BigEnc.mk.injEq, ← hl]
    refine ⟨hs, List.ext_getElem (by simp [h, h']) fun i hi hi' => ?_⟩
    simp only [List.length_take, lt_min_iff] at hi hi'
    simpa [List.getD, hi.2, hi'.2] using hd i hi.1
  rw [BigReg.val, henc, BigReg.val]

/-- Settles O10, by induction on the number of limbs, through the lemmas above. -/
theorem valueIsTheWeightedLimbSum : Obligations.ValueIsTheWeightedLimbSum := by
  refine ⟨fun db e => ⟨?_, fun hnil => ?_, fun hs => ?_, e.val_of_sign db, e.val_snoc_signLimb db⟩, BigReg.val_congr⟩
  · rw [← limbSum_eq_sum]; rfl
  · simp [BigEnc.val, BigEnc.len, hnil, signWord]
  · simp [BigEnc.val, hs, signWord]

end Sys2Proof.Machine
end

section
/-! PROOFS. What unwritten register-file words hold cannot be observed (spec 10_state.md R22, 70_reset_and_hazards.md R97):
every operation maps blocks that agree on the written words to blocks that agree on them. -/

namespace Sys2Proof.Machine

/-- Two blocks of one shape that agree but for what unwritten register-file words hold. -/
structure Block.AgreeOnWritten (p : Params) (b b' : Block) : Prop where
  /-- Outside the register file they are the same. -/
  rest : ∃ regs, b' = { b with regs := regs }
  shape : b.Shape p
  shape' : b'.Shape p
  regs : ∀ k, (b.reg p k).AgreeOnWritten (b'.reg p k)

theorem BigReg.AgreeOnWritten.refl (r : BigReg) : r.AgreeOnWritten r := ⟨rfl, rfl, fun _ => ⟨rfl, rfl⟩, fun _ _ => rfl⟩

/-- Two well-shaped states that agree on the written words differ in the block alone, and there only in what unwritten
words hold. -/
theorem State.AgreeOnWritten.block_agree {s s' : State} (h : s.AgreeOnWritten s') (hs : s.block.Shape s.params)
    (hs' : s'.block.Shape s'.params) :
    s' = { s with block := s'.block } ∧ s.block.AgreeOnWritten s.params s'.block := by
  obtain ⟨p, b, sch, rd, dr⟩ := s
  obtain ⟨p', b', sch', rd', dr'⟩ := s'
  obtain ⟨regs, lc, bu, dn, z, n, be, ie, er, fa⟩ := b
  obtain ⟨regs', lc', bu', dn', z', n', be', ie', er', fa'⟩ := b'
  obtain ⟨rfl, rfl, rfl, rfl, rfl, rfl, rfl, rfl, rfl, rfl, rfl, rfl, rfl, -, hregs⟩ := h
  refine ⟨rfl, ⟨regs', rfl⟩, hs, hs', fun k => ?_⟩
  by_cases hk : k < p.nreg
  · exact hregs k hk
  · have hout : ∀ l : List BigReg, l.length = p.nreg → l.getD k (BigReg.afterReset p) = BigReg.afterReset p :=
      fun l hl => List.getD_eq_default _ _ (by omega)
    simp only [Block.reg, hout regs hs.1, hout regs' hs'.1]
    exact BigReg.AgreeOnWritten.refl _

/-- Next states that differ in blocks that agree are outcomes that agree. -/
theorem outcomesAgree_next (s : State) (b' : Block) (h : s.block.AgreeOnWritten s.params b') :
    OutcomesAgree (.next s) (.next { s with block := b' }) := by
  obtain ⟨⟨regs', rfl⟩, hs, hs', hregs⟩ := h
  exact ⟨rfl, rfl, rfl, rfl, rfl, rfl, rfl, rfl, rfl, rfl, rfl, rfl, rfl, hs.1.trans hs'.1.symm, fun k _ => hregs k⟩

section regs
variable {p : Params} {r r' : BigReg}

/-- A header write makes the header words the same. -/
theorem BigReg.AgreeOnWritten.storeHdr (h : r.AgreeOnWritten r') (w : Word) :
    (r.storeHdr w).AgreeOnWritten (r'.storeHdr w) := by
  obtain ⟨-, hmarks, -, hlimbs⟩ := h
  exact ⟨rfl, hmarks, fun _ => ⟨rfl, rfl⟩, hlimbs⟩

/-- A limb write makes that limb the same and leaves the others. -/
theorem BigReg.AgreeOnWritten.storeLimb (h : r.AgreeOnWritten r') (hs : r.Shape p) (hs' : r'.Shape p) (i : Nat)
    (w : Word) : (r.storeLimb p i w).AgreeOnWritten (r'.storeLimb p i w) := by
  obtain ⟨hhdr, hmarks, hfields, hlimbs⟩ := h
  refine ⟨hhdr, by simp [hmarks], hfields, fun j hj => ?_⟩
  by_cases hji : j = i
  · subst hji
    by_cases hin : j < p.nlimb <;> simp [List.getD, hs.1, hs'.1, hin]
  · simp only [BigReg.storeLimb_limbWritten, BigReg.storeLimb_limbs, List.getD,
      List.getElem?_set_ne (Ne.symm hji)] at hj ⊢
    exact hlimbs j hj

/-- With the header written, the two lengths and the marks that the checks look at are the same. -/
theorem BigReg.AgreeOnWritten.len_ready (h : r.AgreeOnWritten r') (hw : r.hdrWritten = true) :
    r.len = r'.len ∧ r.limbsReady = r'.limbsReady := by
  obtain ⟨-, hmarks, hfields, -⟩ := h
  obtain ⟨-, hlen⟩ := hfields hw
  exact ⟨hlen, by simp [BigReg.limbsReady, hlen, hmarks]⟩

/-- A legal operand denotes the same integer in both. -/
theorem BigReg.AgreeOnWritten.val_eq (h : r.AgreeOnWritten r') (hs : r.Shape p) (hs' : r'.Shape p)
    (hop : r.LegalOperand p) : r.val p.db = r'.val p.db := by
  obtain ⟨hw, hfit, hready⟩ := hop
  obtain ⟨-, -, hfields, hlimbs⟩ := h
  obtain ⟨hsign, hlen⟩ := hfields hw
  rw [BigReg.limbsReady_iff] at hready
  exact BigReg.val_congr p.db r r' hsign hlen (by rw [hs.1]; exact hfit) (by rw [hs'.1]; exact hfit)
    fun i hi => hlimbs i (hready i hi)

end regs

/-- Writing beyond the register file writes nothing. -/
theorem Block.setReg_of_le (b : Block) (k : Nat) (r : BigReg) (h : b.regs.length ≤ k) : b.setReg k r = b := by
  rw [Block.setReg, List.set_eq_of_length_le h]

section blocks
variable {p : Params} {b b' : Block}

/-- The checks of R83 look at nothing that is unwritten: the verdicts are the same. -/
theorem Block.AgreeOnWritten.judge_eq (h : b.AgreeOnWritten p b') (sub : Bool) (rd rs1 rs2 : Nat) :
    b'.judge p sub rd rs1 rs2 = b.judge p sub rd rs1 rs2 := by
  have hhdr : ∀ k, (b'.reg p k).hdrWritten = (b.reg p k).hdrWritten := fun k => (h.regs k).1.symm
  unfold Block.judge
  dsimp only
  rw [hhdr, hhdr]
  by_cases hw : (b.reg p rs1).hdrWritten = false ∨ (b.reg p rs2).hdrWritten = false
  · simp only [if_pos hw]
  obtain ⟨hw1, hw2⟩ : (b.reg p rs1).hdrWritten = true ∧ (b.reg p rs2).hdrWritten = true := by simpa using hw
  obtain ⟨hlen1, hready1⟩ := (h.regs rs1).len_ready hw1
  obtain ⟨hlen2, hready2⟩ := (h.regs rs2).len_ready hw2
  rw [← hlen1, ← hlen2, ← hready1, ← hready2]
  by_cases hl : p.nlimb < (b.reg p rs1).len.toNat ∨ p.nlimb < (b.reg p rs2).len.toNat
  · simp only [if_pos hl]
  by_cases hr : (b.reg p rs1).limbsReady = false ∨ (b.reg p rs2).limbsReady = false
  · simp only [if_pos hr]
  obtain ⟨hr1, hr2⟩ : (b.reg p rs1).limbsReady = true ∧ (b.reg p rs2).limbsReady = true := by simpa using hr
  rw [(h.regs rs1).val_eq (b.reg_shape _ _ h.shape) (b'.reg_shape _ _ h.shape') ⟨hw1, by omega, hr1⟩,
    (h.regs rs2).val_eq (b.reg_shape _ _ h.shape) (b'.reg_shape _ _ h.shape') ⟨hw2, by omega, hr2⟩]

/-- The fields outside the register file, which decide what a step does, are the same. -/
theorem Block.AgreeOnWritten.control (h : b.AgreeOnWritten p b') :
    b'.lastcmd = b.lastcmd ∧ b'.busy = b.busy ∧ b'.fault = b.fault ∧ b'.statusWord = b.statusWord ∧
    b'.ctrlWord = b.ctrlWord := by
  obtain ⟨regs', rfl⟩ := h.rest
  exact ⟨rfl, rfl, rfl, rfl, rfl⟩

/-- The command in flight gets the same verdict. -/
theorem Block.AgreeOnWritten.verdict_eq (h : b.AgreeOnWritten p b') : b'.verdict p = b.verdict p := by
  obtain ⟨hcmd, -⟩ := h.control
  cases hd : decode b.lastcmd with
  | error e => rw [b.verdict_of_error p e hd, b'.verdict_of_error p e (hcmd ▸ hd)]
  | ok i =>
    obtain ⟨sub, rd, rs1, rs2, rfl⟩ := exists_addSubInstr i
    rw [b.verdict_of_ok p sub rd rs1 rs2 hd, b'.verdict_of_ok p sub rd rs1 rs2 (hcmd ▸ hd), h.judge_eq]

/-- The command in flight has the same destination. -/
theorem Block.AgreeOnWritten.dest_eq (h : b.AgreeOnWritten p b') : b'.dest = b.dest := by
  obtain ⟨hcmd, -⟩ := h.control
  unfold Block.dest
  rw [hcmd]

/-- An update that neither reads nor writes the register file keeps the agreement. -/
theorem Block.AgreeOnWritten.map (h : b.AgreeOnWritten p b') (f : Block → Block)
    (hf : ∀ (b : Block) regs, f { b with regs := regs } = { f b with regs := regs }) :
    (f b).AgreeOnWritten p (f b') := by
  have hfregs : ∀ b : Block, (f b).regs = b.regs := fun b => by
    have hb := congrArg Block.regs (hf b b.regs)
    exact hb
  obtain ⟨⟨regs', rfl⟩, hs, hs', hregs⟩ := h
  refine ⟨⟨regs', hf b regs'⟩, ?_, ?_, fun k => ?_⟩
  · simpa only [Block.Shape, hfregs] using hs
  · simpa only [Block.Shape, hfregs] using hs'
  · simpa only [Block.reg, hfregs] using hregs k

/-- Writing registers that agree keeps the agreement. -/
theorem Block.AgreeOnWritten.setReg (h : b.AgreeOnWritten p b') (k : Nat) {r r' : BigReg} (hr : r.Shape p)
    (hr' : r'.Shape p) (hrr : r.AgreeOnWritten r') : (b.setReg k r).AgreeOnWritten p (b'.setReg k r') := by
  obtain ⟨⟨regs', rfl⟩, hs, hs', hregs⟩ := h
  refine ⟨⟨regs'.set k r', rfl⟩, Block.setReg_shape p _ k r hs hr, Block.setReg_shape p _ k r' hs' hr', fun j => ?_⟩
  by_cases hj : j = k
  · subst hj
    by_cases hin : j < p.nreg
    · rw [Block.reg_setReg_self p b j r (by rw [hs.1]; exact hin), Block.reg_setReg_self p _ j r' (by rw [hs'.1]; exact hin)]
      exact hrr
    · rw [Block.setReg_of_le b j r (by rw [hs.1]; omega), Block.setReg_of_le _ j r' (by rw [hs'.1]; omega)]
      exact hregs j
  · rw [Block.reg_setReg_ne p b k j r hj, Block.reg_setReg_ne p _ k j r' hj]
    exact hregs j

/-- Reads answer alike: a word that has a value is written, and the same in both (R22, R45). -/
theorem Block.AgreeOnWritten.readTarget_eq (h : b.AgreeOnWritten p b') (t : Target) :
    b'.readTarget p t = b.readTarget p t := by
  obtain ⟨hcmd, -, -, hstatus, hctrl⟩ := h.control
  cases t with
  | cfg => rfl
  | cmd => exact congrArg some hcmd
  | status => exact congrArg some hstatus
  | ctrl => exact congrArg some hctrl
  | hdr k =>
    obtain ⟨hhdr, -, hfields, -⟩ := h.regs k
    cases hw : (b.reg p k).hdrWritten
    · simp [Block.readTarget, ← hhdr, hw]
    · obtain ⟨hsign, hlen⟩ := hfields hw
      simp [Block.readTarget, ← hhdr, hw, BigReg.hdrWord, hsign, hlen]
  | limb k i =>
    obtain ⟨-, hmarks, -, hlimbs⟩ := h.regs k
    simp only [Block.readTarget, ← hmarks]
    cases hw : (b.reg p k).limbWritten.getD i false
    · rfl
    · rw [hlimbs i hw]
  | razwi => rfl

/-- Writes keep the agreement (R46, R48). -/
theorem Block.AgreeOnWritten.writeTarget (h : b.AgreeOnWritten p b') (hp : p.Legal) (w : Word) (t : Target) :
    (b.writeTarget p w t).AgreeOnWritten p (b'.writeTarget p w t) := by
  obtain ⟨-, hbusy, -⟩ := h.control
  have hs : ∀ k, (b.reg p k).Shape p := fun k => Block.reg_shape p b k h.shape
  have hs' : ∀ k, (b'.reg p k).Shape p := fun k => Block.reg_shape p b' k h.shape'
  have hdrop : b.dropWrite.AgreeOnWritten p b'.dropWrite := h.map Block.dropWrite fun _ _ => rfl
  cases t with
  | cfg => exact h
  | cmd =>
    simp only [Block.writeTarget, hbusy]
    split
    · exact hdrop
    · exact h.map (·.accept w) fun _ _ => rfl
  | status => exact h.map (·.clearStatus w) fun _ _ => rfl
  | ctrl => exact h.map (fun b => { b with ie := w.getLsbD 0 }) fun _ _ => rfl
  | hdr k =>
    simp only [Block.writeTarget, hbusy]
    split
    · exact hdrop
    · exact h.setReg k (BigReg.storeHdr_shape p _ w (hs k)) (BigReg.storeHdr_shape p _ w (hs' k))
        ((h.regs k).storeHdr w)
  | limb k i =>
    simp only [Block.writeTarget, hbusy]
    split
    · exact hdrop
    · exact h.setReg k (BigReg.storeLimb_shape p _ i w hp (hs k)) (BigReg.storeLimb_shape p _ i w hp (hs' k))
        ((h.regs k).storeLimb (hs k) (hs' k) i w)
  | razwi => exact h

/-- The completion keeps the agreement: what it commits is made of written words alone. -/
theorem Block.AgreeOnWritten.complete (h : b.AgreeOnWritten p b') (hp : p.Legal) :
    (b.conclude p b.dest (b.verdict p)).AgreeOnWritten p (b'.conclude p b'.dest (b'.verdict p)) := by
  rw [h.dest_eq, h.verdict_eq]
  cases hv : b.verdict p with
  | error c => exact h.map (·.finishErr c) fun _ _ => rfl
  | fault r => exact h.map (·.recordFault r) fun _ _ => rfl
  | commit v =>
    obtain ⟨sub, rs1, rs2, -, ⟨-, -, -, hfit⟩, rfl⟩ := Block.commits_of_verdict p b v hv
    have hr := BigReg.committed_shape p _ (canon_digits p.db (resultOf sub p b rs1 rs2) hp.2.1) hfit
    exact (h.setReg b.dest hr hr (BigReg.AgreeOnWritten.refl _)).map (fun c => { c with
      z := zFlag (resultOf sub p b rs1 rs2), n := nFlag (resultOf sub p b rs1 rs2), err := ErrCode.ok.code,
      busy := false, done := true }) fun _ _ => rfl

end blocks

section turns
variable {s : State} {b' : Block}

theorem completeStep_agree (h : s.block.AgreeOnWritten s.params b') (hp : s.params.Legal) :
    OutcomesAgree (completeStep s) (completeStep { s with block := b' }) := by
  rw [completeStep_eq, completeStep_eq]
  exact outcomesAgree_next { s with block := _ } _ (h.complete hp)

theorem engineTurn_agree (h : s.block.AgreeOnWritten s.params b') (hp : s.params.Legal) :
    OutcomesAgree (engineTurn s) (engineTurn { s with block := b' }) := by
  obtain ⟨-, hbusy, hfault, -⟩ := h.control
  simp only [engineTurn, Block.Enabled, hbusy, hfault]
  split
  · exact completeStep_agree h hp
  · exact outcomesAgree_next s b' h

theorem idle_agree (h : s.block.AgreeOnWritten s.params b') (hp : s.params.Legal) :
    OutcomesAgree (idle s) (idle { s with block := b' }) := by
  obtain ⟨-, hbusy, hfault, -⟩ := h.control
  simp only [idle, Block.Enabled, hbusy, hfault]
  split
  · exact completeStep_agree h hp
  · cases s.block.fault with
    | some r => rfl
    | none => exact outcomesAgree_next s b' h

/-- A read of states that agree changes the host's own data alike. -/
theorem hostRead_agree (h : s.block.AgreeOnWritten s.params b') (t : Target) :
    OutcomesAgree (.next (hostRead t s)) (.next (hostRead t { s with block := b' })) := by
  have hread := h.readTarget_eq t
  cases hv : s.block.readTarget s.params t with
  | some w =>
    rw [hostRead_some t s w hv, hostRead_some t { s with block := b' } w (hread.trans hv)]
    exact outcomesAgree_next { s with readData := _ } b' h
  | none =>
    rw [hostRead_none t s hv, hostRead_none t { s with block := b' } (hread.trans hv)]
    exact outcomesAgree_next { s with readData := _, draws := _ } b' h

theorem hostTurn_agree (h : s.block.AgreeOnWritten s.params b') (hp : s.params.Legal) (a : Access) :
    OutcomesAgree (hostTurn a s) (hostTurn a { s with block := b' }) := by
  unfold hostTurn
  split
  · rfl
  split
  · rfl
  split
  · rfl
  cases a with
  | read width addr => exact hostRead_agree h _
  | write width addr w => exact outcomesAgree_next (hostWrite _ w s) _ (h.writeTarget hp w _)

/-- Reset makes everything the same. -/
theorem resetTurn_agree (s : State) (b' : Block) :
    OutcomesAgree (.next (resetTurn s)) (.next (resetTurn { s with block := b' })) :=
  outcomesAgree_next (resetTurn s) (Block.afterReset s.params)
    ⟨⟨_, rfl⟩, Block.afterReset_shape _, Block.afterReset_shape _, fun _ => BigReg.AgreeOnWritten.refl _⟩

theorem takeTurn_agree (h : s.block.AgreeOnWritten s.params b') (hp : s.params.Legal) (u : Turn) :
    OutcomesAgree (takeTurn u s) (takeTurn u { s with block := b' }) := by
  cases u with
  | host a => exact hostTurn_agree h hp a
  | engine => exact engineTurn_agree h hp
  | reset => exact resetTurn_agree s b'

end turns

/-- Settles O50, turn by turn. -/
theorem unwrittenContentsAreUnobservable : Obligations.UnwrittenContentsAreUnobservable := by
  intro s s' hs hs' hagree
  obtain ⟨hp, hshape, -⟩ := hs
  obtain ⟨hst, h⟩ := hagree.block_agree hshape hs'.2.1
  rw [hst]
  by_cases hsch : s.schedule = []
  · rw [step_nil s hsch, step_nil { s with block := s'.block } hsch]
    exact idle_agree h hp
  · obtain ⟨u, rest, hcons⟩ := List.exists_cons_of_ne_nil hsch
    rw [step_cons s u rest hcons, step_cons { s with block := s'.block } u rest hcons]
    exact takeTurn_agree (s := { s with schedule := rest }) h hp u

end Sys2Proof.Machine
end

section
/-! PROOFS. Host accesses (spec 20_memory.md R40, R44-R49): what `BusRead` and `BusWrite` do offset by offset, which
accesses have no step, and which events change a register (40_addsub.md R73). -/

namespace Sys2Proof.Machine

/-! ### Reads -/

/-- `STATUS` as a number (R25). -/
theorem Block.statusWord_eq (b : Block) :
    b.statusWord = BitVec.ofNat 32 (b.busyerr.toNat * 2 ^ 8 + b.err.toNat * 2 ^ 4 + b.n.toNat * 2 ^ 3 +
      b.z.toNat * 2 ^ 2 + b.done.toNat * 2 + b.busy.toNat) := by
  have herr : b.err.toNat < 8 := b.err.isLt
  have hbusyerr := b.busyerr.toNat_le
  have hn := b.n.toNat_le
  have hz := b.z.toNat_le
  have hdone := b.done.toNat_le
  have hbusy := b.busy.toNat_le
  apply BitVec.eq_of_toNat_eq
  simp only [Block.statusWord, toNat_append_add, BitVec.toNat_ofNat, BitVec.toNat_ofBool]
  omega

/-- `HDR` as a number (R19). -/
theorem BigReg.hdrWord_eq (r : BigReg) : r.hdrWord = BitVec.ofNat 32 (r.sign.toNat * 2 ^ 31 + r.len.toNat) := by
  have hlen : r.len.toNat < 512 := r.len.isLt
  have hsign : r.sign.toNat ≤ 1 := Bool.toNat_le _
  apply BitVec.eq_of_toNat_eq
  simp only [BigReg.hdrWord, toNat_append_add, BitVec.toNat_ofNat, BitVec.toNat_ofBool]
  omega

/-- A read of an unwritten word returns a fresh draw without a bit outside the word's mask (10_state.md R22). -/
theorem State.readsDraw_of_readTarget (s : State) (off : Nat) (hoff : off < windowBytes) (ha : off % 4 = 0)
    (h : s.block.readTarget s.params (targetOf s.params off) = none) :
    s.ReadsDraw off ((targetOf s.params off).drawMask s.params) := by
  intro rest
  refine ⟨Config.draw s.draws &&& (targetOf s.params off).drawMask s.params, ?_, ?_⟩
  · exact (step_ld32 { s with schedule := ld32 s.params off :: rest } off rest hoff ha rfl).trans
      (congrArg Host.Outcome.next (hostRead_none _ { s with schedule := rest } h))
  · simp [BitVec.and_assoc]

/-- A header that is not written reads as a draw (10_state.md R22). -/
theorem State.readsDraw_hdr (s : State) (k : Nat) (hp : s.params.Legal) (hk : k < s.params.nreg)
    (hw : (s.block.reg s.params k).hdrWritten = false) : s.ReadsDraw (hdrOffset k) hdrMask := by
  obtain ⟨hwin, halign⟩ := hdrOffset_inWindow s.params k hp hk
  have h := s.readsDraw_of_readTarget _ hwin halign
  rw [targetOf_hdrOffset _ _ hk] at h
  exact h (by simp [Block.readTarget, hw])

/-- A limb that is not written reads as a draw (10_state.md R22). -/
theorem State.readsDraw_limb (s : State) (k i : Nat) (hp : s.params.Legal) (hk : k < s.params.nreg)
    (hi : i < s.params.nlimb) (hw : (s.block.reg s.params k).limbWritten.getD i false = false) :
    s.ReadsDraw (limbOffset k i) (digitMask s.params) := by
  obtain ⟨hwin, halign⟩ := limbOffset_inWindow s.params k i hp hk hi
  have h := s.readsDraw_of_readTarget _ hwin halign
  rw [targetOf_limbOffset _ _ _ hk hi hp.2.2.2.1] at h
  exact h (by rw [Block.readTarget, hw]; rfl)

/-- An offset that names nothing reads as 0 (R41, R45). -/
theorem State.readsAs_razWi (s : State) (off : Nat) (h : RazWi s.params off) : s.ReadsAs off 0#32 :=
  s.readsAs_of_readTarget off _ h.1 h.2.1 (by rw [targetOf_razWi _ _ h]; rfl)

/-- Settles O31, offset by offset: each packed word as the sum of its fields, and a draw where the mark is not set. -/
theorem busReadReturnsTheTable : Obligations.BusReadReturnsTheTable := by
  intro s hp
  refine ⟨(cfgIsConstantAndReadOnly.1 s hp).1, lastcmdIsTheLastAcceptedWord.2.1 s, ?status, ?ctrl,
    fun k hk => ⟨fun hw => ?hdr, s.readsDraw_hdr k hp hk, fun i hi =>
      ⟨s.readsAs_limb k i hp hk hi, s.readsDraw_limb k i hp hk hi⟩⟩, s.readsAs_razWi⟩
  case status =>
    exact s.readsAs_of_readTarget 0x008 _ (by decide) (by decide) (congrArg some s.block.statusWord_eq)
  case ctrl =>
    exact s.readsAs_of_readTarget 0x00C _ (by decide) (by decide) (congrArg some s.block.ctrlWord_eq)
  case hdr =>
    rw [← BigReg.hdrWord_eq]
    exact s.readsAs_hdr k hp hk hw

/-! ### Writes -/

/-- A 1 in bit 1 or bit 8 clears DONE or BUSYERR, and a 0 leaves it (R25). -/
theorem Block.clearStatus_eq (b : Block) (w : Word) :
    b.clearStatus w = { b with
      done := if w.getLsbD 1 then false else b.done,
      busyerr := if w.getLsbD 8 then false else b.busyerr } := by
  unfold Block.clearStatus
  cases w.getLsbD 1 <;> cases w.getLsbD 8 <;> simp

/-- The header fields that a stored word sets, as numbers (R19). -/
theorem BigReg.storeHdr_eq (r : BigReg) (w : Word) :
    r.storeHdr w =
      { r with sign := w.getLsbD 31, len := BitVec.ofNat 9 (w.toNat % 2 ^ 9), hdrWritten := true } := by
  have hlen : w.setWidth 9 = BitVec.ofNat 9 (w.toNat % 2 ^ 9) := by
    apply BitVec.eq_of_toNat_eq
    simp
  rw [BigReg.storeHdr, hlen]

/-- The limb that a stored word sets, as a number (R20). -/
theorem BigReg.storeLimb_eq (p : Params) (r : BigReg) (i : Nat) (w : Word) (h : p.db ≤ 32) :
    r.storeLimb p i w =
      { r with
        limbs := r.limbs.set i (BitVec.ofNat 32 (w.toNat % 2 ^ p.db)),
        limbWritten := r.limbWritten.set i true } := by
  rw [BigReg.storeLimb, and_digitMask p w h]

/-- A write to `STATUS` is performed, busy or not (R46, R48). -/
theorem State.writesTo_status (s : State) (w : Word) :
    s.WritesTo 0x008 w { s.block with
      done := if w.getLsbD 1 then false else s.block.done,
      busyerr := if w.getLsbD 8 then false else s.block.busyerr } := by
  rw [← Block.clearStatus_eq]
  exact s.writesTo_writeTarget 0x008 w (by decide) (by decide)

/-- A write to `CTRL` is performed, busy or not (R46, R48). -/
theorem State.writesTo_ctrl (s : State) (w : Word) : s.WritesTo 0x00C w { s.block with ie := w.getLsbD 0 } :=
  s.writesTo_writeTarget 0x00C w (by decide) (by decide)

/-- A write to an offset that names nothing is ignored, busy or not (R46, R48). -/
theorem State.writesTo_razWi (s : State) (w : Word) (off : Nat) (h : RazWi s.params off) : s.WritesTo off w s.block := by
  have hwrites := s.writesTo_writeTarget off w h.1 h.2.1
  rw [targetOf_razWi _ _ h] at hwrites
  exact hwrites

/-- With no command in flight a write to `CMD` is an acceptance, whatever the word (R47). -/
theorem State.writesTo_cmd_idle (s : State) (w : Word) (hb : s.block.busy = false) :
    s.WritesTo 0x004 w (s.block.accept w) := by
  have hwrites := s.writesTo_writeTarget 0x004 w (by decide) (by decide)
  rw [targetOf_cmd, Block.writeTarget_cmd_idle _ _ _ hb] at hwrites
  exact hwrites

/-- With a command in flight a write to `CMD` is dropped (R48). -/
theorem State.writesTo_cmd_busy (s : State) (w : Word) (hb : s.block.busy = true) :
    s.WritesTo 0x004 w s.block.dropWrite := by
  have hwrites := s.writesTo_writeTarget 0x004 w (by decide) (by decide)
  rw [targetOf_cmd, Block.writeTarget_cmd_busy _ _ _ hb] at hwrites
  exact hwrites

/-- With a command in flight a write to a mapped register-file word is dropped (R48). -/
theorem State.writesTo_regFile_busy (s : State) (w : Word) (off : Nat) (hp : s.params.Legal)
    (hb : s.block.busy = true) (h : RegFileOffset s.params off) : s.WritesTo off w s.block.dropWrite := by
  obtain ⟨hwin, halign⟩ := RegFileOffset.inWindow _ _ hp h
  rw [← Block.writeTarget_regFile_busy _ _ w _ hp hb h]
  exact s.writesTo_writeTarget off w hwin halign

/-- Settles O32, offset by offset. -/
theorem busWriteWhenIdleFollowsTheTable : Obligations.BusWriteWhenIdleFollowsTheTable := by
  intro s w hp hb
  refine ⟨(cfgIsConstantAndReadOnly.1 s hp).2 w, s.writesTo_cmd_idle w hb, s.writesTo_status w, s.writesTo_ctrl w,
    fun k hk => ⟨?hdr, fun i hi => ?limb⟩, s.writesTo_razWi w⟩
  case hdr =>
    rw [← BigReg.storeHdr_eq]
    exact s.writesTo_hdr w k hp hb hk
  case limb =>
    rw [← BigReg.storeLimb_eq _ _ _ _ hp.2.1]
    exact s.writesTo_limb w k i hp hb hk hi

/-- Settles O33: `CMD` and the register file drop the write, the other offsets do not look at BUSY. -/
theorem busWriteWhenBusyIsDropped : Obligations.BusWriteWhenBusyIsDropped := by
  intro s w hp hb
  have hdropped := fun off => s.writesTo_regFile_busy w off hp hb
  exact ⟨s.writesTo_cmd_busy w hb,
    fun k hk => ⟨hdropped _ ⟨k, hk, .inl rfl⟩, fun i hi => hdropped _ ⟨k, hk, .inr ⟨i, hi, rfl⟩⟩⟩,
    s.writesTo_status w, s.writesTo_ctrl w, (cfgIsConstantAndReadOnly.1 s hp).2 w, s.writesTo_razWi w⟩

/-! ### Repeated writes -/

/-- An idempotent change of one register is idempotent on the block, whether the register exists or not. -/
theorem Block.setReg_idem (p : Params) (b : Block) (k : Nat) (f : BigReg → BigReg) (hf : ∀ r, f (f r) = f r) :
    (b.setReg k (f (b.reg p k))).setReg k (f ((b.setReg k (f (b.reg p k))).reg p k)) =
      b.setReg k (f (b.reg p k)) := by
  by_cases hk : k < b.regs.length
  · rw [Block.reg_setReg_self _ _ _ _ hk, hf, Block.setReg_setReg]
  · simp only [Block.setReg_of_le b k _ (Nat.le_of_not_lt hk)]

theorem BigReg.storeHdr_storeHdr (r : BigReg) (w : Word) : (r.storeHdr w).storeHdr w = r.storeHdr w := rfl

theorem BigReg.storeLimb_storeLimb (p : Params) (r : BigReg) (i : Nat) (w : Word) :
    (r.storeLimb p i w).storeLimb p i w = r.storeLimb p i w := by
  simp [BigReg.storeLimb]

/-- With a command in flight every mapped register-file word drops the write (R48). -/
theorem Block.writeTarget_isRegFile_busy (p : Params) (b : Block) (w : Word) (t : Target) (hb : b.busy = true)
    (ht : t.isRegFile = true) : b.writeTarget p w t = b.dropWrite := by
  cases t with
  | hdr k => simp [Block.writeTarget, hb]
  | limb k i => simp [Block.writeTarget, hb]
  | _ => cases ht

/-- Only the write to `CMD` adds anything when it is repeated (R49). -/
theorem Block.writeTarget_idem (p : Params) (b : Block) (w : Word) (t : Target) (ht : t ≠ .cmd) :
    (b.writeTarget p w t).writeTarget p w t = b.writeTarget p w t := by
  by_cases hdrop : b.busy = true ∧ t.isRegFile = true
  · obtain ⟨hb, hreg⟩ := hdrop
    rw [Block.writeTarget_isRegFile_busy p b w t hb hreg,
      Block.writeTarget_isRegFile_busy p b.dropWrite w t hb hreg]
    rfl
  have hidle : t.isRegFile = true → b.busy = false := by simpa using fun hreg hb => hdrop ⟨hb, hreg⟩
  cases t with
  | cmd => exact absurd rfl ht
  | status => simp [Block.clearStatus]
  | hdr k =>
    have hb := hidle rfl
    rw [Block.writeTarget_hdr_idle p b w k hb, Block.writeTarget_hdr_idle p (b.setReg k _) w k hb]
    exact Block.setReg_idem p b k (·.storeHdr w) fun r => r.storeHdr_storeHdr w
  | limb k i =>
    have hb := hidle rfl
    rw [Block.writeTarget_limb_idle p b w k i hb, Block.writeTarget_limb_idle p (b.setReg k _) w k i hb]
    exact Block.setReg_idem p b k (·.storeLimb p i w) fun r => r.storeLimb_storeLimb p i w
  | _ => rfl

/-- The same write a second time leaves the block that the first one left (R49). -/
theorem State.exists_writesTo_twice (s : State) (off : Nat) (w : Word) (hoff : off < windowBytes) (ha : off % 4 = 0)
    (ht : targetOf s.params off ≠ .cmd) :
    ∃ b, s.WritesTo off w b ∧ State.WritesTo { s with block := b } off w b := by
  refine ⟨_, s.writesTo_writeTarget off w hoff ha, ?_⟩
  have hagain := State.writesTo_writeTarget
    { s with block := s.block.writeTarget s.params w (targetOf s.params off) } off w hoff ha
  rw [Block.writeTarget_idem _ _ _ _ ht] at hagain
  exact hagain

/-- Settles O39: every write but that to `CMD` is idempotent, and the write to `CMD` depends on BUSY alone. -/
theorem repeatedWritesAddNothing : Obligations.RepeatedWritesAddNothing := by
  intro s w hp
  refine ⟨s.exists_writesTo_twice 0x00C w (by decide) (by decide) (by simp), fun k hk => ⟨?hdr, fun i hi => ?limb⟩,
    fun hb => ⟨s.writesTo_cmd_busy w hb, ?busy⟩,
    fun hb _ => ⟨s.block.accept w, s.writesTo_cmd_idle w hb, rfl, rfl⟩⟩
  case hdr =>
    obtain ⟨hwin, halign⟩ := hdrOffset_inWindow s.params k hp hk
    exact s.exists_writesTo_twice _ w hwin halign (by simp [targetOf_hdrOffset _ _ hk])
  case limb =>
    obtain ⟨hwin, halign⟩ := limbOffset_inWindow s.params k i hp hk hi
    exact s.exists_writesTo_twice _ w hwin halign (by simp [targetOf_limbOffset _ _ _ hk hi hp.2.2.2.1])
  case busy =>
    exact State.writesTo_cmd_busy { s with block := s.block.dropWrite } w hb

/-! ### What changes a register -/

/-- A completion that changes a register is that of a decoded command with that destination (40_addsub.md R73). -/
theorem Block.reg_conclude_ne (p : Params) (b : Block) (k : Nat)
    (h : (b.conclude p b.dest (b.verdict p)).reg p k ≠ b.reg p k) :
    ∃ sub rs1 rs2, decode b.lastcmd = .ok (addSubInstr sub k rs1 rs2) := by
  cases hv : b.verdict p with
  | error c => exact absurd (by rw [hv]; rfl) h
  | fault r => exact absurd (by rw [hv]; rfl) h
  | commit v =>
    obtain ⟨-, -, -, -, hother⟩ := Block.conclude_rest p b b.dest (b.verdict p)
    obtain rfl : k = b.dest := not_imp_comm.mp (hother k) h
    obtain ⟨sub, rs1, rs2, hdecode, -, -⟩ := b.commits_of_verdict p v hv
    exact ⟨sub, rs1, rs2, hdecode⟩

/-- Settles O48, event by event: the events that remain keep every register. -/
theorem onlyTheseEventsChangeARegister : Obligations.OnlyTheseEventsChangeARegister := by
  intro s t k _ h hne
  obtain ⟨hev, -⟩ := step_event s t h
  have hsame : t.block.regs ≠ s.block.regs := fun hregs => hne (Block.reg_congr _ _ _ k hregs)
  cases hev with
  | completes hc hb =>
    rw [hb] at hne
    exact .inr (.inl ⟨hc, Block.reg_conclude_ne _ _ k hne⟩)
  | stores j off w r hidle hj hw hoff _ hb =>
    rw [hb] at hne
    obtain rfl : k = j := not_imp_comm.mp (Block.reg_setReg_ne _ _ j k r) hne
    exact .inr (.inr ⟨hidle, hj, off, w, hw, hoff⟩)
  | resets hr hb => exact .inl hr
  | _ => simp_all

/-! ### Accesses that have no step -/

/-- An access outside the window stops with its own fault (log entry 10). -/
theorem hostTurn_outside (a : Access) (s : State) (h : ¬ InWindow s.params a.addr) :
    hostTurn a s = .fault .outsideWindow := if_pos h

/-- Inside the window an access of another width, or else at an unaligned offset, is refused (R44). -/
theorem hostTurn_illegal (a : Access) (s : State) (hin : InWindow s.params a.addr)
    (h : a.width ≠ .w32 ∨ (a.addr - s.params.base) % 4 ≠ 0) :
    hostTurn a s = .refused .accessWidth ∨ hostTurn a s = .refused .misaligned := by
  unfold hostTurn
  rw [if_neg (not_not.mpr hin)]
  by_cases hw : a.width = .w32
  · exact .inr (by rw [if_neg (not_not.mpr hw), if_pos (h.resolve_left (not_not.mpr hw))])
  · exact .inl (if_pos hw)

/-- Settles O37: an access inside the window that is of the right width and aligned is performed. -/
theorem illegalAccessesAreRefused : Obligations.IllegalAccessesAreRefused := by
  intro s a rest hs hin
  rw [step_cons s _ _ hs]
  refine ⟨hostTurn_illegal a { s with schedule := rest } hin, fun hrefused => ?_⟩
  by_contra hlegal
  obtain ⟨hw, halign⟩ := not_or.mp hlegal
  have hnext := hostTurn_legal a { s with schedule := rest } ⟨hin, not_not.mp hw, not_not.mp halign⟩
  simp [takeTurn, hnext] at hrefused

/-- Settles O38: inside the window an access is performed or refused, never a fault. -/
theorem accessOutsideTheWindowFaults : Obligations.AccessOutsideTheWindowFaults := by
  intro s a rest hs
  rw [step_cons s _ _ hs]
  have hout : a.addr < s.params.base ∨ s.params.base + 0x4000 ≤ a.addr ↔ ¬ InWindow s.params a.addr := by
    rw [InWindow, windowBytes]; omega
  rw [hout]
  refine ⟨hostTurn_outside a { s with schedule := rest }, fun hfault hin => ?_⟩
  by_cases h : a.width ≠ .w32 ∨ (a.addr - s.params.base) % 4 ≠ 0
  · rcases hostTurn_illegal a { s with schedule := rest } hin h with h' | h' <;> simp [takeTurn, h'] at hfault
  · obtain ⟨hw, halign⟩ := not_or.mp h
    have hnext := hostTurn_legal a { s with schedule := rest } ⟨hin, not_not.mp hw, not_not.mp halign⟩
    simp [takeTurn, hnext] at hfault

/-! ### A command placed as the next to run -/

/-- The 512 words of each opcode decode to the three indices that they were encoded from (30_encoding.md R60, R62). -/
theorem decode_encode_fin (sub : Bool) : ∀ rd rs1 rs2 : Fin 8,
    decode (encode (addSubInstr sub rd rs1 rs2)) = .ok (addSubInstr sub rd rs1 rs2) := by
  cases sub <;> decide

/-- A well-formed instruction has indices that fit their fields (30_encoding.md R56). -/
theorem wellFormed_addSubInstr (sub : Bool) (rd rs1 rs2 : Nat) :
    (addSubInstr sub rd rs1 rs2).WellFormed ↔ rd < 8 ∧ rs1 < 8 ∧ rs2 < 8 := by
  cases sub <;> simp [addSubInstr, Instr.WellFormed, Instr.wellFormed, regFieldOk, and_assoc]

/-- A well-formed instruction is what its encoding decodes to (30_encoding.md R60, R62). -/
theorem decode_encode (i : Instr) (h : i.WellFormed) : decode (encode i) = .ok i := by
  obtain ⟨sub, rd, rs1, rs2, rfl⟩ := exists_addSubInstr i
  obtain ⟨hrd, h1, h2⟩ := (wellFormed_addSubInstr sub rd rs1 rs2).mp h
  exact decode_encode_fin sub ⟨rd, hrd⟩ ⟨rs1, h1⟩ ⟨rs2, h2⟩

/-- At its turn the engine takes the completion step, where that is enabled (40_addsub.md R72). -/
theorem step_engine (s : State) (rest : List Turn) (hs : s.schedule = .engine :: rest) (he : s.block.Enabled) :
    step s = completeStep { s with schedule := rest } := by
  rw [step_cons s _ _ hs]
  exact if_pos he

/-- The completion step of a legal word runs the command that it decodes to (40_addsub.md R72). -/
theorem completeStep_of_ok (s : State) (i : Instr) (h : decode s.block.lastcmd = .ok i) : completeStep s = exec i s := by
  rw [completeStep, h]

/-- Settles O26: the accepted word decodes back to the instruction, at the engine's turn. -/
theorem withFetchWordRunsTheCommandNext : Obligations.WithFetchWordRunsTheCommandNext := by
  intro s i hi
  have hword : BitVec.ofNat 32 ((encode i).toNat % 2 ^ 32) = encode i := by
    rw [Nat.mod_eq_of_lt (encode i).isLt, BitVec.ofNat_toNat, BitVec.setWidth_eq]
  rw [State.withFetchWord, hword, step_engine _ s.schedule rfl ⟨rfl, rfl⟩]
  exact completeStep_of_ok _ i (decode_encode i hi)

end Sys2Proof.Machine
end

section
/-! PROOFS. The command word (spec 30_encoding.md R56-R62): the decoder in plain arithmetic, the encoder as its inverse on
the legal words, how many words are legal, and what an Illegal word completes with. -/

namespace Sys2Proof.Machine

/-! ### The decoder -/

/-- `OP` as a number (R57). -/
theorem fieldOp_toNat (w : Word) : (fieldOp w).toNat = w.toNat % 16 := BitVec.extractLsb'_toNat 0 4 w

theorem fieldOp_eq_iff (w : Word) (op : BitVec 4) : fieldOp w = op ↔ w.toNat % 16 = op.toNat := by
  rw [← BitVec.toNat_inj, fieldOp_toNat]

/-- A 3-bit field as a number (R57). -/
theorem toNat_regField (w : Word) (lo : Nat) : (w.extractLsb' lo 3).toNat = w.toNat / 2 ^ lo % 8 := by
  rw [BitVec.extractLsb'_toNat, Nat.shiftRight_eq_div_pow]

/-- The decoder of R60 on the word as a number. -/
theorem decode_eq (w : Word) : decode w =
    if w &&& rsvdMask ≠ 0#32 then .error .reservedBits
    else if w.toNat % 16 = 1 then .ok (.add (w.toNat / 2 ^ 8 % 8) (w.toNat / 2 ^ 12 % 8) (w.toNat / 2 ^ 16 % 8))
    else if w.toNat % 16 = 2 then .ok (.sub (w.toNat / 2 ^ 8 % 8) (w.toNat / 2 ^ 12 % 8) (w.toNat / 2 ^ 16 % 8))
    else .error .reservedOp := by
  simp only [decode, fieldOp_eq_iff, fieldRd, fieldRs1, fieldRs2, toNat_regField, BitVec.toNat_ofNat, Nat.reducePow,
    Nat.reduceMod]

/-- A word with a reserved bit set is Illegal (R59). -/
theorem decode_of_reservedBit (w : Word) (h : w &&& rsvdMask ≠ 0#32) : decode w = .error .reservedBits := by
  rw [decode_eq, if_pos h]

/-- `OP` 1 is ADD (R58). -/
theorem decode_of_op_one (w : Word) (h : w &&& rsvdMask = 0#32) (hop : w.toNat % 16 = 1) :
    decode w = .ok (.add (w.toNat / 2 ^ 8 % 8) (w.toNat / 2 ^ 12 % 8) (w.toNat / 2 ^ 16 % 8)) := by
  rw [decode_eq, if_neg (not_not.mpr h), if_pos hop]

/-- `OP` 2 is SUB (R58). -/
theorem decode_of_op_two (w : Word) (h : w &&& rsvdMask = 0#32) (hop : w.toNat % 16 = 2) :
    decode w = .ok (.sub (w.toNat / 2 ^ 8 % 8) (w.toNat / 2 ^ 12 % 8) (w.toNat / 2 ^ 16 % 8)) := by
  rw [decode_eq, if_neg (not_not.mpr h), if_neg (by omega), if_pos hop]

/-- Any other `OP` is Illegal (R59). -/
theorem decode_of_reservedOp (w : Word) (h : w &&& rsvdMask = 0#32) (h1 : w.toNat % 16 ≠ 1) (h2 : w.toNat % 16 ≠ 2) :
    decode w = .error .reservedOp := by
  rw [decode_eq, if_neg (not_not.mpr h), if_neg h1, if_neg h2]

/-- Which words are Illegal (R59). -/
theorem decode_isError_iff (w : Word) : (∃ e, decode w = .error e) ↔
    (w.toNat % 16 ≠ 1 ∧ w.toNat % 16 ≠ 2) ∨ w &&& rsvdMask ≠ 0#32 := by
  by_cases h : w &&& rsvdMask = 0#32
  · by_cases h1 : w.toNat % 16 = 1
    · simp [decode_of_op_one w h h1, h, h1]
    · by_cases h2 : w.toNat % 16 = 2
      · simp [decode_of_op_two w h h2, h, h2]
      · simp [decode_of_reservedOp w h h1 h2, h1, h2]
  · simp [decode_of_reservedBit w h, h]

/-- Every word is ADD, SUB or Illegal (R60). -/
theorem decode_trichotomy (w : Word) : (∃ rd rs1 rs2, decode w = .ok (.add rd rs1 rs2)) ∨
    (∃ rd rs1 rs2, decode w = .ok (.sub rd rs1 rs2)) ∨ ∃ e, decode w = .error e := by
  cases hd : decode w with
  | error e => exact .inr (.inr ⟨e, rfl⟩)
  | ok i =>
    cases i with
    | add rd rs1 rs2 => exact .inl ⟨rd, rs1, rs2, rfl⟩
    | sub rd rs1 rs2 => exact .inr (.inl ⟨rd, rs1, rs2, rfl⟩)

/-! ### The encoder as the inverse of the decoder -/

/-- Settles O1: `decode_encode`. -/
theorem decodeEncodeRoundTrip : Obligations.DecodeEncodeRoundTrip := decode_encode

/-- The bits of format `CR` that are not reserved (R56). -/
theorem getLsbD_not_rsvdMask : ∀ i : Fin 32, (~~~rsvdMask).getLsbD i =
    decide (i.val < 4 ∨ 8 ≤ i.val ∧ i.val < 11 ∨ 12 ≤ i.val ∧ i.val < 15 ∨ 16 ≤ i.val ∧ i.val < 19) := by decide

/-- The four fields of a word, put back in their places, are all of it but its reserved bits (R56, R62). -/
theorem encodeRegs_fields (w : Word) :
    encodeRegs (fieldRd w).toNat (fieldRs1 w).toNat (fieldRs2 w).toNat ||| (fieldOp w).setWidth 32 =
      w &&& ~~~rsvdMask := by
  apply BitVec.eq_of_getLsbD_eq
  intro i hi
  rw [BitVec.getLsbD_and, getLsbD_not_rsvdMask ⟨i, hi⟩]
  simp only [encodeRegs, fieldRd, fieldRs1, fieldRs2, fieldOp, BitVec.ofNat_toNat, BitVec.getLsbD_or,
    BitVec.getLsbD_shiftLeft, BitVec.getLsbD_setWidth, BitVec.getLsbD_extractLsb', hi]
  grind

/-- A word without reserved bits is its other bits. -/
theorem and_not_rsvdMask (w : Word) (h : w &&& rsvdMask = 0#32) : w &&& ~~~rsvdMask = w := by
  calc w &&& ~~~rsvdMask = (w &&& rsvdMask) ||| (w &&& ~~~rsvdMask) := by rw [h, BitVec.zero_or]
    _ = w := by ext i; simp; grind

/-- What a legal word is and decodes to (R60). -/
theorem decode_ok_cases (w : Word) (i : Instr) (h : decode w = .ok i) : w &&& rsvdMask = 0#32 ∧
    ((fieldOp w = 0x1#4 ∧ i = .add (fieldRd w).toNat (fieldRs1 w).toNat (fieldRs2 w).toNat) ∨
      (fieldOp w = 0x2#4 ∧ i = .sub (fieldRd w).toNat (fieldRs1 w).toNat (fieldRs2 w).toNat)) := by
  unfold decode at h
  split at h
  · cases h
  next hres =>
    refine ⟨not_not.mp hres, ?_⟩
    split at h
    next hop => cases h; exact .inl ⟨hop, rfl⟩
    next =>
      split at h
      next hop => cases h; exact .inr ⟨hop, rfl⟩
      next => cases h

/-- Settles O2: a legal word is its four fields put back in their places, and `OP` is the command's opcode. -/
theorem decodedWordsEncodeBack : Obligations.DecodedWordsEncodeBack := by
  intro w i hw
  obtain ⟨hres, hcases⟩ := decode_ok_cases w i hw
  have hword := (encodeRegs_fields w).trans (and_not_rsvdMask w hres)
  have hlt : ∀ f : BitVec 3, f.toNat < 8 := fun f => f.isLt
  rcases hcases with ⟨hop, rfl⟩ | ⟨hop, rfl⟩
  · exact ⟨(wellFormed_addSubInstr false _ _ _).mpr ⟨hlt _, hlt _, hlt _⟩, by rwa [hop] at hword⟩
  · exact ⟨(wellFormed_addSubInstr true _ _ _).mpr ⟨hlt _, hlt _, hlt _⟩, by rwa [hop] at hword⟩

/-! ### How many words are legal -/

/-- The encoding of three indices that fit their fields, for ADD or for SUB. -/
def encodeFin (sub : Bool) (x : Fin 8 × Fin 8 × Fin 8) : Word := encode (addSubInstr sub x.1 x.2.1 x.2.2)

theorem decode_encodeFin (sub : Bool) (x : Fin 8 × Fin 8 × Fin 8) :
    decode (encodeFin sub x) = .ok (addSubInstr sub x.1 x.2.1 x.2.2) := decode_encode_fin sub x.1 x.2.1 x.2.2

/-- Two commands are the same exactly when the opcode and the three indices are. -/
theorem addSubInstr_inj (sub sub' : Bool) (rd rs1 rs2 rd' rs1' rs2' : Nat) :
    addSubInstr sub rd rs1 rs2 = addSubInstr sub' rd' rs1' rs2' ↔
      sub = sub' ∧ rd = rd' ∧ rs1 = rs1' ∧ rs2 = rs2' := by
  cases sub <;> cases sub' <;> simp [addSubInstr]

/-- Different indices have different words: decoding tells them apart. -/
theorem encodeFin_injective (sub : Bool) : Function.Injective (encodeFin sub) := by
  intro x y h
  have hd := decode_encodeFin sub x
  rw [h, decode_encodeFin sub y, Except.ok.injEq, addSubInstr_inj] at hd
  obtain ⟨-, hrd, h1, h2⟩ := hd
  exact Prod.ext (Fin.ext hrd.symm) (Prod.ext (Fin.ext h1.symm) (Fin.ext h2.symm))

/-- The words that decode to ADD (`sub = false`) or to SUB (`sub = true`). -/
def wordsOf (sub : Bool) : Set Word := {w | ∃ rd rs1 rs2, decode w = .ok (addSubInstr sub rd rs1 rs2)}

/-- They are the encodings of the indices that fit. -/
theorem wordsOf_eq_range (sub : Bool) : wordsOf sub = Set.range (encodeFin sub) := by
  ext w
  constructor
  · rintro ⟨rd, rs1, rs2, hw⟩
    obtain ⟨hwf, henc⟩ := decodedWordsEncodeBack w _ hw
    obtain ⟨hrd, h1, h2⟩ := (wellFormed_addSubInstr sub rd rs1 rs2).mp hwf
    exact ⟨(⟨rd, hrd⟩, ⟨rs1, h1⟩, ⟨rs2, h2⟩), henc⟩
  · rintro ⟨x, rfl⟩
    exact ⟨_, _, _, decode_encodeFin sub x⟩

/-- Each opcode has 2^9 words (R60). -/
theorem ncard_wordsOf (sub : Bool) : (wordsOf sub).ncard = 512 := by
  rw [wordsOf_eq_range, Set.ncard_range_of_injective (encodeFin_injective sub)]
  simp

/-- No word has two meanings. -/
theorem disjoint_wordsOf : Disjoint (wordsOf false) (wordsOf true) := by
  rw [Set.disjoint_left]
  rintro w ⟨rd, rs1, rs2, hw⟩ ⟨rd', rs1', rs2', hw'⟩
  rw [hw, Except.ok.injEq, addSubInstr_inj] at hw'
  exact absurd hw'.1 (by decide)

/-- The Illegal words are all the others. -/
theorem illegalWords_eq_compl : {w : Word | ∃ e, decode w = .error e} = (wordsOf false ∪ wordsOf true)ᶜ := by
  ext w
  constructor
  · rintro ⟨e, he⟩ (⟨rd, rs1, rs2, hw⟩ | ⟨rd, rs1, rs2, hw⟩) <;> simp [hw] at he
  · intro hw
    rcases decode_trichotomy w with h | h | h
    · exact absurd (.inl h) hw
    · exact absurd (.inr h) hw
    · exact h

/-- Every word but the 1024 legal ones is Illegal (R60). -/
theorem ncard_illegalWords : {w : Word | ∃ e, decode w = .error e}.ncard = 2 ^ 32 - 1024 := by
  have htotal : Nat.card Word = 2 ^ 32 := by rw [Nat.card_congr BitVec.equivFin.toEquiv, Nat.card_fin]
  have hlegal : (wordsOf false ∪ wordsOf true).ncard = 1024 := by
    rw [Set.ncard_union_eq disjoint_wordsOf, ncard_wordsOf, ncard_wordsOf]
  have hsum := Set.ncard_add_ncard_compl (wordsOf false ∪ wordsOf true)
  rw [illegalWords_eq_compl]
  omega

/-- Settles O3, from the decoder in plain arithmetic and the encodings as an enumeration of the legal words. -/
theorem decoderFollowsTheOpcodeMap : Obligations.DecoderFollowsTheOpcodeMap :=
  ⟨fun w h => ⟨_, decode_of_reservedBit w h⟩,
    fun w h => ⟨decode_of_op_one w h, decode_of_op_two w h, fun h1 h2 => ⟨_, decode_of_reservedOp w h h1 h2⟩⟩,
    ncard_wordsOf false, ncard_wordsOf true, ncard_illegalWords⟩

/-- Settles O4, by running the decoder. -/
theorem sampleCommandWordsDecode : Obligations.SampleCommandWordsDecode := by
  unfold Obligations.SampleCommandWordsDecode
  decide

/-! ### The completion of an Illegal word -/

/-- The step of a state that completes is the completion step, at the engine's turn or with no turn left (R72). -/
theorem State.Completes.step_eq {s : State} (hc : s.Completes) : step s = completeStep s.popped := by
  obtain ⟨he, hs | hs⟩ := hc
  · have hpop : s.popped = s := by rw [State.popped, hs, List.tail_nil, ← hs]
    rw [step_nil s hs, idle, if_pos he, hpop]
  · obtain ⟨rest, hs⟩ := List.head?_eq_some_iff.mp hs
    rw [step_engine s rest hs he]
    simp only [State.popped, hs, List.tail_cons]

/-- The completion step of an Illegal word (R72). -/
theorem completeStep_of_error (s : State) (e : DecodeError) (h : decode s.block.lastcmd = .error e) :
    completeStep s = .next (completeIllegal s) := by
  rw [completeStep, h]

/-- Settles O27: the two reasons for which a word is Illegal, and `finish_err(ILLEGAL)`. -/
theorem illegalWordsCompleteWithIllegal : Obligations.IllegalWordsCompleteWithIllegal := by
  refine ⟨decode_isError_iff, decode_trichotomy, ?_⟩
  rintro s hc ⟨e, he⟩
  exact ⟨_, hc.step_eq.trans (completeStep_of_error s.popped e he), rfl, rfl, rfl, rfl⟩

end Sys2Proof.Machine
end

section
/-! PROOFS. The texts of commands, as the assembler reads them, and the encoding formula (spec 30_encoding.md R62). -/

namespace Sys2Proof.Machine

/-! ### The reader of texts -/

/-- A register name at the front of a text is read as its index. -/
theorem parseReg_regName (k : Nat) (rest : List Char) (hk : k < 8) : parseReg (regName k ++ rest) = some (k, rest) := by
  have hdigit : ∀ j : Fin 8, 48 ≤ (Nat.digitChar j).toNat ∧ (Nat.digitChar j).toNat < 56 ∧
      (Nat.digitChar j).toNat - 48 = j := by decide
  obtain ⟨hlo, hhi, hval⟩ := hdigit ⟨k, hk⟩
  simp only [regName, List.cons_append, List.nil_append, parseReg, hlo, hhi, hval, and_self, if_true]

/-- The last register of a list. -/
theorem parseRegs_last (k : Nat) (hk : k < 8) : parseRegs 1 (regName k) = some [k] := by
  have h := parseReg_regName k [] hk
  rw [List.append_nil] at h
  simp [parseRegs, h]

/-- A register with more to come, after a comma and a space. -/
theorem parseRegs_cons (n k : Nat) (rest : List Char) (hk : k < 8) :
    parseRegs (n + 2) (regName k ++ ([',', ' '] ++ rest)) = (parseRegs (n + 1) rest).map (k :: ·) := by
  rw [parseRegs, parseReg_regName k _ hk]
  simp

/-- The three printed registers are read back. -/
theorem parseRegs_regNames (rd rs1 rs2 : Nat) (hrd : rd < 8) (h1 : rs1 < 8) (h2 : rs2 < 8) :
    parseRegs 3 (regNames rd rs1 rs2) = some [rd, rs1, rs2] := by
  simp only [regNames, List.append_assoc]
  rw [parseRegs_cons 1 rd _ hrd, parseRegs_cons 0 rs1 _ h1, parseRegs_last rs2 h2]
  rfl

/-- A text is its mnemonic, in lower case, and what follows the first space. -/
theorem parseAsm_append (m rest : List Char) (hm : ' ' ∉ m.map Char.toLower) :
    parseAsm (m ++ ' ' :: rest) = instrOf (m.map Char.toLower) rest := by
  have hne : ∀ c ∈ m, decide (c ≠ ' ') = true := by
    intro c hc
    refine decide_eq_true fun hsp => hm ?_
    exact List.mem_map.mpr ⟨c, hc, by rw [hsp]; decide⟩
  rw [parseAsm, List.dropWhile_append_of_pos hne, List.takeWhile_append_of_pos hne]
  simp

/-- `ADD` in any mix of cases, before three registers. -/
theorem parseAsm_add (m : List Char) (hm : m.map Char.toLower = ['a', 'd', 'd']) (rd rs1 rs2 : Nat) (hrd : rd < 8)
    (h1 : rs1 < 8) (h2 : rs2 < 8) : parseAsm (m ++ ' ' :: regNames rd rs1 rs2) = some (.add rd rs1 rs2) := by
  rw [parseAsm_append m _ (by rw [hm]; decide), hm, instrOf, if_pos rfl, parseRegs_regNames rd rs1 rs2 hrd h1 h2]

/-- `SUB` in any mix of cases, before three registers. -/
theorem parseAsm_sub (m : List Char) (hm : m.map Char.toLower = ['s', 'u', 'b']) (rd rs1 rs2 : Nat) (hrd : rd < 8)
    (h1 : rs1 < 8) (h2 : rs2 < 8) : parseAsm (m ++ ' ' :: regNames rd rs1 rs2) = some (.sub rd rs1 rs2) := by
  rw [parseAsm_append m _ (by rw [hm]; decide), hm, instrOf, if_neg (by decide), if_pos rfl,
    parseRegs_regNames rd rs1 rs2 hrd h1 h2]

/-- A printed command is read back. -/
theorem parseAsm_asm (i : Instr) (h : i.WellFormed) : parseAsm i.asm = some i := by
  cases i with
  | add rd rs1 rs2 =>
    obtain ⟨hrd, h1, h2⟩ := (wellFormed_addSubInstr false rd rs1 rs2).mp h
    exact parseAsm_add ['A', 'D', 'D'] (by decide) rd rs1 rs2 hrd h1 h2
  | sub rd rs1 rs2 =>
    obtain ⟨hrd, h1, h2⟩ := (wellFormed_addSubInstr true rd rs1 rs2).mp h
    exact parseAsm_sub ['S', 'U', 'B'] (by decide) rd rs1 rs2 hrd h1 h2

/-! ### The encoding formula -/

/-- A register field in its place, as a number: nothing is cut off. -/
theorem toNat_regField_shiftLeft (k lo : Nat) (hk : k < 8) (hlo : lo ≤ 16) :
    (BitVec.ofNat 32 k <<< lo).toNat = k <<< lo := by
  have hpow : 2 ^ lo ≤ 2 ^ 16 := Nat.pow_le_pow_right (by decide) hlo
  have hlt : k * 2 ^ lo < 2 ^ 32 := by nlinarith
  rw [BitVec.toNat_shiftLeft, BitVec.toNat_ofNat, Nat.mod_eq_of_lt (by omega : k < 2 ^ 32), Nat.shiftLeft_eq,
    Nat.mod_eq_of_lt hlt]

/-- The three register fields as a number (R62). -/
theorem encodeRegs_toNat (rd rs1 rs2 : Nat) (hrd : rd < 8) (h1 : rs1 < 8) (h2 : rs2 < 8) :
    (encodeRegs rd rs1 rs2).toNat = (rs2 <<< 16 ||| rs1 <<< 12 ||| rd <<< 8) := by
  rw [encodeRegs, BitVec.toNat_or, BitVec.toNat_or, toNat_regField_shiftLeft rd 8 hrd (by decide),
    toNat_regField_shiftLeft rs1 12 h1 (by decide), toNat_regField_shiftLeft rs2 16 h2 (by decide)]

/-- Settles O5: the reader on printed texts, its mnemonics in any case, and `enc` as a number. -/
theorem assemblerSyntaxAndEncodingFormula : Obligations.AssemblerSyntaxAndEncodingFormula := by
  refine ⟨parseAsm_asm, fun rd rs1 rs2 hrd h1 h2 => ⟨?_, ?_, ?_, ?_⟩⟩
  · rw [encode, BitVec.toNat_or, encodeRegs_toNat rd rs1 rs2 hrd h1 h2]; rfl
  · rw [encode, BitVec.toNat_or, encodeRegs_toNat rd rs1 rs2 hrd h1 h2]; rfl
  · exact fun m hm => parseAsm_add m hm rd rs1 rs2 hrd h1 h2
  · exact fun m hm => parseAsm_sub m hm rd rs1 rs2 hrd h1 h2

end Sys2Proof.Machine
end

section
/-! PROOFS. What a commit leaves in the destination, and the pseudo-instructions (spec 40_addsub.md R66, R68, R73,
30_encoding.md R63). -/

namespace Sys2Proof.Machine

/-! ### The value of a canonical encoding, and the length that a value needs -/

/-- The low `j` digits of `u` stand for `u mod 2^(DB*j)` (R66). -/
theorem limbSum_digitsOf (db u k j : Nat) (hdb : db ≤ 32) (hj : j ≤ k) :
    limbSum db (digitsOf db u k) j = u % 2 ^ (db * j) := by
  induction j with
  | zero => simp [Nat.mod_one]
  | succ j ih =>
    rw [limbSum_succ, ih (by omega), digitsOf_getD db u k j hdb hj, Nat.mul_succ, Nat.pow_add, Nat.mod_mul,
      Nat.mul_comm (2 ^ (db * j))]

/-- `canon(v)` denotes `v` (R66). -/
theorem canon_val (db : Nat) (v : Int) (h1 : 1 ≤ db) (h32 : db ≤ 32) : (canon db v).val db = v := by
  obtain ⟨hlo, hhi⟩ := (canonLen_le_iff db v (canonLen db v) h1).mp le_rfl
  set t := canonLen db v with ht
  set u := v - signWord (decide (v < 0)) * 2 ^ (db * t) with hu
  have hrange : 0 ≤ u ∧ u < 2 ^ (db * t) := by
    by_cases hv : v < 0 <;> simp [hu, signWord, hv] <;> omega
  have hlt : u.toNat < 2 ^ (db * t) := by
    zify
    rw [Int.toNat_of_nonneg hrange.1]
    exact hrange.2
  have hsum : limbSum db (digitsOf db u.toNat t) t = u.toNat := by
    rw [limbSum_digitsOf db _ t t h32 le_rfl, Nat.mod_eq_of_lt hlt]
  have hdigits : (canon db v).digits = digitsOf db u.toNat t := rfl
  rw [BigEnc.val, canon_len, canon_sign, hdigits, ← ht, hsum, Int.toNat_of_nonneg hrange.1, hu]
  ring

/-- `T` limbs hold a value in `[-2^(DB*T), 2^(DB*T) - 1]` (R18, R68). -/
theorem BigEnc.val_range (db : Nat) (e : BigEnc) (hd : e.Digits db) :
    -(2 ^ (db * e.len)) ≤ e.val db ∧ e.val db < 2 ^ (db * e.len) := by
  have hlt : limbSum db e.digits e.len < 2 ^ (db * e.len) := limbSum_lt db _ _ fun i _ => e.getD_lt db hd i
  zify at hlt
  cases hs : e.sign
  · simp only [BigEnc.val, hs, signWord, Bool.false_eq_true, if_false]
    constructor <;> omega
  · obtain ⟨hlo, hhi⟩ := e.val_of_sign db hs hd
    exact ⟨hlo, by omega⟩

/-- The canonical encoding of what a register holds needs no more limbs than the register uses (R67). -/
theorem BigReg.canonLen_val_le (p : Params) (r : BigReg) (hp : p.Legal) (hs : r.Shape p) :
    canonLen p.db (r.val p.db) ≤ r.len.toNat := by
  obtain ⟨hdb, -⟩ := hp
  obtain ⟨-, -, hlimbs⟩ := hs
  have hlen : r.enc.len ≤ r.len.toNat := List.length_take_le _ _
  have hfit := r.enc.val_range p.db fun d hd => hlimbs d (List.mem_of_mem_take hd)
  exact ((canonLen_le_iff p.db _ _ hdb).mpr hfit).trans hlen

@[simp] theorem canonLen_zero (db : Nat) : canonLen db 0 = 0 := by simp [canonLen, leastFrom, fitsIn]

@[simp] theorem resultOf_false (p : Params) (b : Block) (rs1 rs2 : Nat) :
    resultOf false p b rs1 rs2 = (b.reg p rs1).val p.db + (b.reg p rs2).val p.db := rfl

@[simp] theorem resultOf_true (p : Params) (b : Block) (rs1 rs2 : Nat) :
    resultOf true p b rs1 rs2 = (b.reg p rs1).val p.db - (b.reg p rs2).val p.db := rfl

/-! ### The destination after a commit -/

/-- A committed register denotes the committed integer (R73). -/
theorem BigReg.committed_val (p : Params) (v : Int) (hp : p.Legal) (hl : (canon p.db v).len ≤ p.nlimb) :
    (BigReg.committed p (canon p.db v)).val p.db = v := by
  rw [BigReg.val, BigReg.committed_enc p _ hp hl, canon_val p.db v hp.1 hp.2.1]

/-- A committed register is a legal operand (R21, R73). -/
theorem BigReg.committed_legalOperand (p : Params) (e : BigEnc) (hp : p.Legal) (hl : e.len ≤ p.nlimb) :
    (BigReg.committed p e).LegalOperand p :=
  ⟨rfl, (BigReg.committed_len_toNat p e hp hl).trans_le hl, BigReg.committed_limbsReady p e hp hl⟩

/-- The destination of a command that commits (R73). -/
theorem completeAddSub_reg_self (sub : Bool) (rd rs1 rs2 : Nat) (s : State) (hs : s.block.Shape s.params)
    (hc : s.block.Commits s.params sub rd rs1 rs2) :
    (completeAddSub sub rd rs1 rs2 s).block.reg s.params rd =
      BigReg.committed s.params (canon s.params.db (resultOf sub s.params s.block rs1 rs2)) := by
  rw [completeAddSub_commit sub rd rs1 rs2 s hc]
  exact Block.reg_finishOk_self _ _ _ _ (hs.1 ▸ hc.1)

/-- A command that commits leaves the exact result in its destination (R70, R73). -/
theorem completeAddSub_val (sub : Bool) (rd rs1 rs2 : Nat) (s : State) (hp : s.params.Legal)
    (hs : s.block.Shape s.params) (hc : s.block.Commits s.params sub rd rs1 rs2) :
    ((completeAddSub sub rd rs1 rs2 s).block.reg s.params rd).val s.params.db =
      resultOf sub s.params s.block rs1 rs2 := by
  have ⟨_, _, _, hfit⟩ := hc
  rw [completeAddSub_reg_self sub rd rs1 rs2 s hs hc, BigReg.committed_val _ _ hp hfit]

/-! ### The pseudo-instructions -/

/-- ZERO commits whenever its operand is legal: the result needs no limb (R63). -/
theorem Block.commits_zero (p : Params) (b : Block) (rd rs : Nat) (hrd : rd < p.nreg) (ho : b.OperandOk p rs) :
    b.Commits p true rd rs rs := ⟨hrd, ho, ho, by simp⟩

/-- The destination of ZERO holds the empty nonnegative encoding (R63). -/
theorem completeAddSub_zero_reg (rd rs : Nat) (s : State) (hs : s.block.Shape s.params) (hrd : rd < s.params.nreg)
    (ho : s.block.OperandOk s.params rs) :
    (completeAddSub true rd rs rs s).block.reg s.params rd = BigReg.committed s.params (canon s.params.db 0) := by
  rw [completeAddSub_reg_self true rd rs rs s hs (Block.commits_zero _ _ rd rs hrd ho), resultOf_true, sub_self]

/-- Adding a register that denotes 0 commits: the result is the other operand's value (R63). -/
theorem Block.commits_add_zero (p : Params) (b : Block) (rd rs rz : Nat) (hp : p.Legal) (hs : b.Shape p)
    (hrd : rd < p.nreg) (ho : b.OperandOk p rs) (hz : b.OperandOk p rz) (hval : (b.reg p rz).val p.db = 0) :
    b.Commits p false rd rs rz := by
  refine ⟨hrd, ho, hz, ?_⟩
  have ⟨_, _, hlen, _⟩ := ho
  rw [resultOf_false, hval, add_zero, canon_len]
  exact (BigReg.canonLen_val_le p _ hp (Block.reg_shape p b rs hs)).trans hlen

/-- A commit keeps the shape of the register file (R73). -/
theorem completeAddSub_shape (sub : Bool) (rd rs1 rs2 : Nat) (s : State) (hp : s.params.Legal)
    (hs : s.block.Shape s.params) (hc : s.block.Commits s.params sub rd rs1 rs2) :
    (completeAddSub sub rd rs1 rs2 s).block.Shape s.params := by
  have ⟨_, _, _, hfit⟩ := hc
  rw [completeAddSub_commit sub rd rs1 rs2 s hc]
  exact Block.setReg_shape _ _ rd _ hs (BigReg.committed_shape _ _ (canon_digits _ _ hp.2.1) hfit)

/-- A command that commits leaves `ERR` at 0 (R72). -/
theorem completeAddSub_err (sub : Bool) (rd rs1 rs2 : Nat) (s : State)
    (hc : s.block.Commits s.params sub rd rs1 rs2) : (completeAddSub sub rd rs1 rs2 s).block.err = 0#3 := by
  rw [completeAddSub_commit sub rd rs1 rs2 s hc]
  rfl

/-- A completion leaves every register but its destination (R73). -/
theorem completeAddSub_reg_ne (sub : Bool) (rd rs1 rs2 k : Nat) (s : State) (hk : k ≠ rd) :
    (completeAddSub sub rd rs1 rs2 s).block.reg s.params k = s.block.reg s.params k := by
  obtain ⟨-, -, -, -, hreg⟩ := s.block.conclude_rest s.params rd (s.block.judge s.params sub rd rs1 rs2)
  exact hreg k hk

/-- The copy of R63: after ZERO of `rz`, an ADD with `rz` commits, and leaves the other source's value in `rd`. -/
theorem zero_then_add_copies (rd rz rs : Nat) (s : State) (hp : s.params.Legal) (hs : s.block.Shape s.params)
    (hrd : rd < s.params.nreg) (hne : rz ≠ rs) (hz : s.block.OperandOk s.params rz)
    (ho : s.block.OperandOk s.params rs) :
    let t := completeAddSub true rz rz rz s
    let u := completeAddSub false rd rs rz t
    (u.block.reg s.params rd).val s.params.db = (s.block.reg s.params rs).val s.params.db ∧ u.block.err = 0#3 := by
  intro t u
  have hzero := Block.commits_zero s.params s.block rz rz hz.1 hz
  have hempty : (canon s.params.db 0).len ≤ s.params.nlimb := by simp
  have hreg : t.block.reg s.params rz = BigReg.committed s.params (canon s.params.db 0) :=
    completeAddSub_zero_reg rz rz s hs hz.1 hz
  have hsrc : t.block.reg s.params rs = s.block.reg s.params rs := completeAddSub_reg_ne true rz rz rz rs s hne.symm
  have hval : (t.block.reg s.params rz).val s.params.db = 0 := by rw [hreg, BigReg.committed_val _ _ hp hempty]
  have hshape : t.block.Shape s.params := completeAddSub_shape true rz rz rz s hp hs hzero
  have hcommits : t.block.Commits s.params false rd rs rz :=
    Block.commits_add_zero s.params t.block rd rs rz hp hshape hrd ⟨ho.1, hsrc ▸ ho.2⟩
      ⟨hz.1, hreg ▸ BigReg.committed_legalOperand _ _ hp hempty⟩ hval
  refine ⟨?_, completeAddSub_err false rd rs rz t hcommits⟩
  calc (u.block.reg s.params rd).val s.params.db
      = resultOf false s.params t.block rs rz := completeAddSub_val false rd rs rz t hp hshape hcommits
    _ = (s.block.reg s.params rs).val s.params.db := by rw [resultOf_false, hval, add_zero, hsrc]

/-- Settles O23: each effect is the exact result of the command that the pseudo-instruction stands for. -/
theorem pseudoInstructionsHaveTheirEffects : Obligations.PseudoInstructionsHaveTheirEffects := by
  intro rd rz rs s hp hs
  refine ⟨fun hc => ⟨_, exec_add rd rs rs s, ?_⟩, fun hrd ho => ⟨_, exec_sub rd rs rs s, ?_⟩,
    fun hc hzero => ⟨_, exec_sub rd rz rs s, ?_⟩,
    fun hrd hne hz ho =>
      ⟨_, _, exec_sub rz rz rz s, exec_add rd rs rz _, zero_then_add_copies rd rz rs s hp hs hrd hne hz ho⟩⟩
  · rw [completeAddSub_val false rd rs rs s hp hs hc, resultOf_false, two_mul]
  · rw [completeAddSub_zero_reg rd rs s hs hrd ho]
    simp
  · rw [completeAddSub_val true rd rz rs s hp hs hc, resultOf_true, hzero, zero_sub]

end Sys2Proof.Machine
end

section
/-! PROOFS. clamp and the canonical form: every integer has exactly one canonical encoding with digits in range (spec
40_addsub.md R66, R67). -/

namespace Sys2Proof.Machine

/-! ### What clamp does -/

@[simp] theorem clamp_sign (db : Nat) (sign : Bool) (r : List Word) : (clamp db sign r).sign = sign := rfl

@[simp] theorem clamp_len (db : Nat) (sign : Bool) (r : List Word) :
    (clamp db sign r).len = clampLen db sign r r.length := by
  obtain ⟨hle, -, -⟩ := clampLen_spec db sign r r.length
  simp [clamp, BigEnc.len, hle]

/-- An encoding is canonical exactly when clamp keeps its length (R67). -/
theorem BigEnc.canonical_iff_le_clampLen (db : Nat) (e : BigEnc) :
    e.Canonical db ↔ e.len ≤ clampLen db e.sign e.digits e.len := by
  constructor
  · intro h
    have hlen := congrArg BigEnc.len h
    rw [clamp_len] at hlen
    exact hlen.ge
  · intro h
    have hall : e.digits.take (clampLen db e.sign e.digits e.len) = e.digits := List.take_of_length_le h
    exact congrArg (BigEnc.mk e.sign) hall

/-- An encoding is canonical exactly when it is empty or its top limb is no sign limb (R67). -/
theorem BigEnc.canonical_iff (db : Nat) (e : BigEnc) :
    e.Canonical db ↔ e.len = 0 ∨ e.digits.getD (e.len - 1) 0#32 ≠ signLimb db e.sign := by
  obtain ⟨hle, htop, hrun⟩ := clampLen_spec db e.sign e.digits e.len
  rw [e.canonical_iff_le_clampLen db]
  refine ⟨fun h => le_antisymm hle h ▸ htop, fun h => ?_⟩
  by_contra hlt
  rcases h with hnil | hno
  · omega
  · exact hno (hrun (e.len - 1) (by omega) (by omega))

/-- What clamp leaves is canonical (R67). -/
theorem clamp_canonical (db : Nat) (sign : Bool) (r : List Word) : (clamp db sign r).Canonical db := by
  obtain ⟨-, htop, -⟩ := clampLen_spec db sign r r.length
  rw [BigEnc.canonical_iff, clamp_len]
  rcases Nat.eq_zero_or_pos (clampLen db sign r r.length) with hnil | hpos
  · exact .inl hnil
  · refine htop.imp_right fun hno => ?_
    simpa [clamp, List.getD, List.getElem?_take, hpos] using hno

/-- clamp drops a run of sign limbs from the top, and nothing else (R67). -/
theorem clamp_append (db : Nat) (sign : Bool) (r : List Word) :
    ∃ k, r = (clamp db sign r).digits ++ List.replicate k (signLimb db sign) := by
  obtain ⟨-, -, hrun⟩ := clampLen_spec db sign r r.length
  set n := clampLen db sign r r.length with hn
  have hdrop : r.drop n = List.replicate (r.length - n) (signLimb db sign) := by
    refine List.eq_replicate_iff.mpr ⟨List.length_drop, fun d hd => ?_⟩
    obtain ⟨i, hi, rfl⟩ := List.getElem_of_mem hd
    have hlt : n + i < r.length := by simpa [Nat.lt_sub_iff_add_lt'] using hi
    simpa [List.getD, hlt] using hrun (n + i) (by omega) hlt
  exact ⟨r.length - n, by rw [← hdrop]; exact (List.take_append_drop n r).symm⟩

/-- Any number of further sign limbs stands for the same integer (R18). -/
theorem BigEnc.val_append_signLimbs (db : Nat) (sign : Bool) (ds : List Word) (k : Nat) (hdb : db ≤ 32) :
    BigEnc.val db { sign := sign, digits := ds ++ List.replicate k (signLimb db sign) } =
      BigEnc.val db { sign := sign, digits := ds } := by
  induction k with
  | zero => simp
  | succ k ih =>
    rw [List.replicate_succ', ← List.append_assoc]
    exact (BigEnc.val_snoc_signLimb db ⟨sign, ds ++ List.replicate k (signLimb db sign)⟩ hdb).trans ih

/-- clamp keeps the value (R67). -/
theorem clamp_val (db : Nat) (sign : Bool) (r : List Word) (hdb : db ≤ 32) :
    (clamp db sign r).val db = BigEnc.val db { sign := sign, digits := r } := by
  obtain ⟨k, hk⟩ := clamp_append db sign r
  have happ := BigEnc.val_append_signLimbs db sign (clamp db sign r).digits k hdb
  rw [← hk] at happ
  exact happ.symm

/-- clamp keeps the digits in range (R67). -/
theorem clamp_digits (db : Nat) (sign : Bool) (r : List Word) (h : ∀ d ∈ r, d.toNat < 2 ^ db) :
    (clamp db sign r).Digits db := fun d hd => h d (List.mem_of_mem_take hd)

/-! ### The value determines the canonical encoding -/

/-- The sign of an encoding is that of its value (R18). -/
theorem BigEnc.sign_eq (db : Nat) (e : BigEnc) (hd : e.Digits db) : e.sign = decide (e.val db < 0) := by
  cases hs : e.sign
  · have hpos : 0 ≤ e.val db := by simp [BigEnc.val, hs, signWord]
    simpa using hpos
  · obtain ⟨-, hneg⟩ := e.val_of_sign db hs hd
    simp only [true_eq_decide_iff]
    omega

/-- If the value fits in all limbs but the top one, then the top one is the sign limb (R66, R67). -/
theorem BigEnc.top_eq_signLimb (db : Nat) (e : BigEnc) (t : Nat) (hdb : db ≤ 32) (hd : e.Digits db)
    (hlen : e.len = t + 1) (hfit : -(2 ^ (db * t)) ≤ e.val db ∧ e.val db < 2 ^ (db * t)) :
    e.digits.getD t 0#32 = signLimb db e.sign := by
  obtain ⟨hlo, hhi⟩ := hfit
  have hlow : limbSum db e.digits t < 2 ^ (db * t) := limbSum_lt db _ _ fun i _ => e.getD_lt db hd i
  have htop := e.getD_lt db hd t
  have hpow : (2 : Int) ^ (db * (t + 1)) = 2 ^ db * 2 ^ (db * t) := by rw [Nat.mul_succ, pow_add, mul_comm]
  have hP : (0 : Int) < 2 ^ (db * t) := by positivity
  zify at hlow htop
  refine BitVec.eq_of_toNat_eq ?_
  rw [signLimb_toNat db e.sign hdb]
  simp only [BigEnc.val, hlen, limbSum_succ, hpow] at hlo hhi
  push_cast at hlo hhi
  cases hs : e.sign <;> simp only [hs, signWord, if_true, Bool.false_eq_true, if_false] at hlo hhi ⊢
  · have hlt : ((e.digits.getD t 0#32).toNat : Int) < 1 := by nlinarith
    omega
  · have hgt : (2 : Int) ^ db - 2 < (e.digits.getD t 0#32).toNat := by nlinarith
    have hpos := Nat.one_le_two_pow (n := db)
    zify [hpos]
    omega

/-- An encoding with digits in range is canonical exactly when it has the least length for its value (R66, R67). -/
theorem BigEnc.canonical_iff_canonLen (db : Nat) (e : BigEnc) (h1 : 1 ≤ db) (h32 : db ≤ 32) (hd : e.Digits db) :
    e.Canonical db ↔ canonLen db (e.val db) = e.len := by
  have hle : canonLen db (e.val db) ≤ e.len := (canonLen_le_iff db _ _ h1).mpr (e.val_range db hd)
  rw [BigEnc.canonical_iff]
  constructor
  · intro htop
    by_contra hne
    obtain ⟨t, ht⟩ : ∃ t, e.len = t + 1 := ⟨e.len - 1, by omega⟩
    have hfit := (canonLen_le_iff db (e.val db) t h1).mp (by omega)
    rw [ht, Nat.add_sub_cancel] at htop
    exact htop.elim (by omega) fun hno => hno (e.top_eq_signLimb db t h32 hd ht hfit)
  · intro hlen
    have hfit := (canonLen_le_iff db _ _ h1).mpr ((clamp db e.sign e.digits).val_range db (clamp_digits db _ _ hd))
    rw [clamp_val db _ _ h32, clamp_len] at hfit
    rw [← BigEnc.canonical_iff, e.canonical_iff_le_clampLen db]
    exact hlen.ge.trans hfit

/-- Equal sums of equally many limbs have equal limbs. -/
theorem limbSum_injective (db : Nat) (ds es : List Word) (k : Nat) (hd : ∀ i < k, (ds.getD i 0#32).toNat < 2 ^ db)
    (he : ∀ i < k, (es.getD i 0#32).toNat < 2 ^ db) (h : limbSum db ds k = limbSum db es k) :
    ∀ i < k, ds.getD i 0#32 = es.getD i 0#32 := by
  induction k with
  | zero => exact fun i hi => absurd hi (Nat.not_lt_zero i)
  | succ k ih =>
    have hlow := limbSum_lt db ds k fun i hi => hd i (by omega)
    have hlow' := limbSum_lt db es k fun i hi => he i (by omega)
    have hpos : 0 < 2 ^ (db * k) := by positivity
    rw [limbSum_succ, limbSum_succ] at h
    have htop : (ds.getD k 0#32).toNat = (es.getD k 0#32).toNat := by
      have hdiv := congrArg (· / 2 ^ (db * k)) h
      simpa [Nat.add_mul_div_right, Nat.div_eq_of_lt, hpos, hlow, hlow'] using hdiv
    have hrest := ih (fun i hi => hd i (by omega)) (fun i hi => he i (by omega)) (by rw [htop] at h; omega)
    intro i hi
    rcases Nat.lt_succ_iff_lt_or_eq.mp hi with hlt | rfl
    · exact hrest i hlt
    · exact BitVec.eq_of_toNat_eq htop

/-- Encodings of one sign, one length and one value are one encoding (R18). -/
theorem BigEnc.eq_of_val_eq (db : Nat) (e f : BigEnc) (he : e.Digits db) (hf : f.Digits db) (hs : e.sign = f.sign)
    (hl : e.len = f.len) (hv : e.val db = f.val db) : e = f := by
  have hsum : limbSum db e.digits e.len = limbSum db f.digits e.len := by
    simp only [BigEnc.val, hs, ← hl] at hv
    omega
  have hdigit := limbSum_injective db _ _ _ (fun i _ => e.getD_lt db he i) (fun i _ => f.getD_lt db hf i) hsum
  have hdigits : e.digits = f.digits := by
    refine List.ext_getElem hl fun i hi hi' => ?_
    simpa [List.getD, hi, hi'] using hdigit i hi
  cases e
  cases f
  exact (BigEnc.mk.injEq ..).mpr ⟨hs, hdigits⟩

/-- `canon(v)` is canonical (R66). -/
theorem canon_canonical (db : Nat) (v : Int) (h1 : 1 ≤ db) (h32 : db ≤ 32) : (canon db v).Canonical db := by
  rw [BigEnc.canonical_iff_canonLen db _ h1 h32 (canon_digits db v h32), canon_val db v h1 h32, canon_len]

/-- The canonical encoding of an integer is unique (R66). -/
theorem BigEnc.eq_canon (db : Nat) (e : BigEnc) (h1 : 1 ≤ db) (h32 : db ≤ 32) (hd : e.Digits db)
    (hc : e.Canonical db) : e = canon db (e.val db) := by
  refine e.eq_of_val_eq db _ hd (canon_digits db _ h32) ?_ ?_ (canon_val db _ h1 h32).symm
  · rw [canon_sign, ← e.sign_eq db hd]
  · rw [canon_len, (e.canonical_iff_canonLen db h1 h32 hd).mp hc]

/-- clamp computes the canonical encoding of what it is given (R66, R67). -/
theorem clamp_eq_canon (db : Nat) (sign : Bool) (r : List Word) (h1 : 1 ≤ db) (h32 : db ≤ 32)
    (hd : ∀ d ∈ r, d.toNat < 2 ^ db) : clamp db sign r = canon db (BigEnc.val db { sign := sign, digits := r }) := by
  rw [← clamp_val db sign r h32]
  exact BigEnc.eq_canon db _ h1 h32 (clamp_digits db sign r hd) (clamp_canonical db sign r)

/-! ### The digits of a canonical encoding -/

/-- The digits of `canon(v)` are those of `v - s * 2^(DB*t)` (R66). -/
theorem canon_digit (db : Nat) (v : Int) (i : Nat) (h1 : 1 ≤ db) (h32 : db ≤ 32) (hi : i < (canon db v).len) :
    (((canon db v).digits.getD i 0#32).toNat : Int) =
      (v - signWord (decide (v < 0)) * 2 ^ (db * (canon db v).len)) / 2 ^ (db * i) % 2 ^ db := by
  rw [canon_len] at hi ⊢
  obtain ⟨hlo, -⟩ := (canonLen_le_iff db v _ h1).mp le_rfl
  have hlow : 0 ≤ v - signWord (decide (v < 0)) * 2 ^ (db * canonLen db v) := by
    by_cases hv : v < 0 <;> simp [signWord, hv] <;> omega
  have hdigit := digitsOf_getD db (v - signWord (decide (v < 0)) * 2 ^ (db * canonLen db v)).toNat _ i h32 hi
  zify at hdigit
  rw [Int.toNat_of_nonneg hlow] at hdigit
  exact hdigit

/-- An empty encoding is the canonical one of 0 or -1 (R66). -/
theorem canon_signWord (db : Nat) (sign : Bool) (h1 : 1 ≤ db) (h32 : db ≤ 32) :
    canon db (signWord sign) = { sign := sign, digits := [] } := by
  have hval : BigEnc.val db { sign := sign, digits := [] } = signWord sign := by simp [BigEnc.val, BigEnc.len]
  rw [← hval]
  exact (BigEnc.eq_canon db { sign := sign, digits := [] } h1 h32 (by simp [BigEnc.Digits]) rfl).symm

/-- Settles O11: the least length, the digits and the uniqueness of the canonical encoding, each by its lemma. -/
theorem canonIsTheUniqueCanonicalEncoding : Obligations.CanonIsTheUniqueCanonicalEncoding := by
  intro db h1 h32
  refine ⟨fun v => ⟨canon_val db v h1 h32, canon_canonical db v h1 h32, canon_digits db v h32, by simp, fun n => ?_,
    fun i hi => ?_, fun e hd hc hv => ?_⟩, canon_signWord db false h1 h32, canon_signWord db true h1 h32⟩
  · rw [canon_len, canonLen_le_iff db v n h1]
    have hpos : (0 : Int) < 2 ^ (db * n) := by positivity
    omega
  · simpa [signWord] using canon_digit db v i h1 h32 hi
  · rw [← hv]
    exact e.eq_canon db h1 h32 hd hc

end Sys2Proof.Machine
end

section
/-! PROOFS. The limb-wise carry algorithm: the bounds of its carry, and that it computes the canonical encoding of the
exact result (spec 40_addsub.md R68, R69, R71). -/

namespace Sys2Proof.Machine

/-! ### The range of an exact result -/

/-- `m` limbs each hold operands whose sum and difference need one bit more (R68). -/
theorem exactResult_range (db : Nat) (sub : Bool) (a b : BigEnc) (ha : a.Digits db) (hb : b.Digits db) :
    -(2 ^ (db * max a.len b.len + 1)) ≤ exactResult sub (a.val db) (b.val db) ∧
    exactResult sub (a.val db) (b.val db) ≤ 2 ^ (db * max a.len b.len + 1) - 1 := by
  obtain ⟨hloa, hhia⟩ := a.val_range db ha
  obtain ⟨hlob, hhib⟩ := b.val_range db hb
  have hma : (2 : Int) ^ (db * a.len) ≤ 2 ^ (db * max a.len b.len) :=
    pow_le_pow_right₀ (by norm_num) (Nat.mul_le_mul_left db (le_max_left _ _))
  have hmb : (2 : Int) ^ (db * b.len) ≤ 2 ^ (db * max a.len b.len) :=
    pow_le_pow_right₀ (by norm_num) (Nat.mul_le_mul_left db (le_max_right _ _))
  rw [pow_succ]
  cases sub <;> simp only [exactResult, if_true, Bool.false_eq_true, if_false] <;> constructor <;> omega

/-- A sum or difference needs at most one limb more than the longer operand (R68). -/
theorem canonLen_exactResult_le (db : Nat) (sub : Bool) (a b : BigEnc) (h1 : 1 ≤ db) (ha : a.Digits db)
    (hb : b.Digits db) : canonLen db (exactResult sub (a.val db) (b.val db)) ≤ max a.len b.len + 1 := by
  obtain ⟨hlo, hhi⟩ := exactResult_range db sub a b ha hb
  have hpow : (2 : Int) ^ (db * max a.len b.len + 1) ≤ 2 ^ (db * (max a.len b.len + 1)) :=
    pow_le_pow_right₀ (by norm_num) (by rw [Nat.mul_succ]; omega)
  exact (canonLen_le_iff db _ _ h1).mpr ⟨by omega, by omega⟩

/-! ### The bounds of the carry -/

theorem signWord_cases (sign : Bool) : signWord sign = -1 ∨ signWord sign = 0 := by cases sign <;> simp [signWord]

/-- `ext(X, i)` is a limb, below the top and above it (R69). -/
theorem ext_range (db : Nat) (e : BigEnc) (i : Nat) (hd : e.Digits db) : 0 ≤ ext db e i ∧ ext db e i < 2 ^ db := by
  have hlt := e.getD_lt db hd i
  have hpos : (0 : Int) < 2 ^ db := by positivity
  zify at hlt
  unfold ext
  split
  · exact ⟨Int.natCast_nonneg _, hlt⟩
  · cases e.sign
    · simp
    · simp only [if_true]
      omega

/-- The running value before a shift, for a carry in `{0, 1}` of ADD or `{-1, 0}` of SUB (R71). -/
theorem running_range (db : Nat) (sub : Bool) (a b : BigEnc) (i : Nat) (c : Int) (ha : a.Digits db)
    (hb : b.Digits db) (hc : c = signWord sub ∨ c = signWord sub + 1) :
    signWord sub * 2 ^ db ≤ c + limbTerm db sub a b i ∧ c + limbTerm db sub a b i < (signWord sub + 2) * 2 ^ db := by
  obtain ⟨hloa, hhia⟩ := ext_range db a i ha
  obtain ⟨hlob, hhib⟩ := ext_range db b i hb
  cases sub <;> simp only [limbTerm, signWord, if_true, Bool.false_eq_true, if_false] at hc ⊢ <;> constructor <;> omega

/-- The carry of ADD is 0 or 1, that of SUB -1 or 0 (R71). -/
theorem carryLoop_carry (db : Nat) (sub : Bool) (a b : BigEnc) (k : Nat) (ha : a.Digits db) (hb : b.Digits db) :
    (carryLoop db sub a b k).2 = signWord sub ∨ (carryLoop db sub a b k).2 = signWord sub + 1 := by
  induction k with
  | zero => cases sub <;> simp [carryLoop, signWord]
  | succ k ih =>
    obtain ⟨hlo, hhi⟩ := running_range db sub a b k _ ha hb ih
    have hpos : (0 : Int) < 2 ^ db := by positivity
    have hle := (Int.le_ediv_iff_mul_le hpos).mpr hlo
    have hlt := (Int.ediv_lt_iff_lt_mul hpos).mpr hhi
    simp only [carryLoop]
    omega

/-- After the sign words are folded in, the carry lies in `[-2, 1]` (R71). -/
theorem foldSigns_range (db : Nat) (sub : Bool) (a b : BigEnc) (k : Nat) (ha : a.Digits db) (hb : b.Digits db) :
    -2 ≤ foldSigns sub a b (carryLoop db sub a b k).2 ∧ foldSigns sub a b (carryLoop db sub a b k).2 ≤ 1 := by
  have hc := carryLoop_carry db sub a b k ha hb
  have hsa := signWord_cases a.sign
  have hsb := signWord_cases b.sign
  unfold foldSigns
  cases sub <;> simp only [signWord, if_true, Bool.false_eq_true, if_false] at hc hsa hsb ⊢ <;> omega

/-- Settles O15: each bound follows from those of a carry and of a limb. -/
theorem carryStaysInBounds : Obligations.CarryStaysInBounds := by
  intro db a b _ _ ha hb
  have hcarry := fun sub k => carryLoop_carry db sub a b k ha hb
  have hrun := fun sub k => running_range db sub a b k _ ha hb (hcarry sub k)
  have hpow : (2 : Int) ^ (db + 1) = 2 * 2 ^ db := by rw [pow_succ, mul_comm]
  refine ⟨fun k => ⟨?_, ?_⟩, fun sub => ?_⟩
  · have hc := hcarry false k
    obtain ⟨hlo, hhi⟩ := hrun false k
    simp only [signWord, Bool.false_eq_true, if_false] at hc hlo hhi
    exact ⟨hc, by omega, by omega⟩
  · have hc := hcarry true k
    obtain ⟨hlo, hhi⟩ := hrun true k
    simp only [signWord, if_true] at hc hlo hhi
    exact ⟨hc, by omega, by omega⟩
  · obtain ⟨hlo, hhi⟩ := foldSigns_range db sub a b (max a.len b.len) ha hb
    refine ⟨hlo, hhi, fun k => ?_⟩
    obtain ⟨hlo, hhi⟩ := hrun sub k
    have hpos : (0 : Int) < 2 ^ db := by positivity
    rcases signWord_cases sub with hs | hs <;> rw [hs] at hlo hhi <;> constructor <;> omega

/-! ### The loop keeps the exact result -/

/-- A word made from an integer in `[0, DM]` holds it. -/
theorem toNat_ofInt_of_range (db : Nat) (x : Int) (hdb : db ≤ 32) (h0 : 0 ≤ x) (hx : x < 2 ^ db) :
    ((BitVec.ofInt 32 x).toNat : Int) = x := by
  have h32 : (2 : Int) ^ db ≤ 2 ^ 32 := pow_le_pow_right₀ (by norm_num) hdb
  rw [BitVec.toNat_ofInt, Int.toNat_of_nonneg (by omega)]
  exact Int.emod_eq_of_lt h0 (by push_cast; omega)

/-- What one limb more on top adds to the sum (R18). -/
theorem limbSum_snoc (db : Nat) (ds : List Word) (d : Word) :
    limbSum db (ds ++ [d]) (ds.length + 1) = limbSum db ds ds.length + d.toNat * 2 ^ (db * ds.length) := by
  have hlow : limbSum db (ds ++ [d]) ds.length = limbSum db ds ds.length :=
    limbSum_congr db _ _ _ fun i hi => List.getD_append _ _ _ i hi
  rw [limbSum_succ, hlow]
  simp [List.getD]

/-- Cut at any place at or above its top, an encoding is its extended limbs and its sign word (R18, R69). -/
theorem BigEnc.val_eq_sum_ext (db : Nat) (e : BigEnc) (k : Nat) (hk : e.len ≤ k) :
    e.val db = ∑ i ∈ Finset.range k, ext db e i * 2 ^ (db * i) + signWord e.sign * 2 ^ (db * k) := by
  induction k, hk using Nat.le_induction with
  | base =>
    rw [BigEnc.val, limbSum_eq_sum]
    congr 1
    refine Finset.sum_congr rfl fun i hi => ?_
    rw [ext, if_pos (Finset.mem_range.mp hi)]
  | succ k hk ih =>
    rw [ih, Finset.sum_range_succ, ext, if_neg (by omega), Nat.mul_succ, pow_add]
    cases e.sign
    · simp [signWord]
    · simp only [signWord, if_true]
      ring

@[simp] theorem carryLoop_length (db : Nat) (sub : Bool) (a b : BigEnc) (k : Nat) :
    (carryLoop db sub a b k).1.length = k := by
  induction k with
  | zero => rfl
  | succ k ih => simp [carryLoop, ih]

/-- The limbs that the loop writes are in range (R69). -/
theorem carryLoop_digits (db : Nat) (sub : Bool) (a b : BigEnc) (k : Nat) (hdb : db ≤ 32) :
    ∀ d ∈ (carryLoop db sub a b k).1, d.toNat < 2 ^ db := by
  induction k with
  | zero => exact fun d hd => absurd hd List.not_mem_nil
  | succ k ih =>
    intro d hd
    rcases List.mem_append.mp hd with hd | hd
    · exact ih d hd
    · have hpos : (0 : Int) < 2 ^ db := by positivity
      rw [List.mem_singleton.mp hd]
      zify
      rw [toNat_ofInt_of_range db _ hdb (Int.emod_nonneg _ hpos.ne') (Int.emod_lt_of_pos _ hpos)]
      exact Int.emod_lt_of_pos _ hpos

/-- The loop's invariant: its limbs and its carry hold the sum of the limb terms so far (R69). -/
theorem carryLoop_sum (db : Nat) (sub : Bool) (a b : BigEnc) (k : Nat) (hdb : db ≤ 32) :
    (limbSum db (carryLoop db sub a b k).1 k : Int) + (carryLoop db sub a b k).2 * 2 ^ (db * k) =
      ∑ i ∈ Finset.range k, limbTerm db sub a b i * 2 ^ (db * i) := by
  induction k with
  | zero => simp [carryLoop]
  | succ k ih =>
    set rc := carryLoop db sub a b k with hrc
    set c := rc.2 + limbTerm db sub a b k with hc
    have hpos : (0 : Int) < 2 ^ db := by positivity
    have hdigit := toNat_ofInt_of_range db (c % 2 ^ db) hdb (Int.emod_nonneg _ hpos.ne') (Int.emod_lt_of_pos _ hpos)
    have hsnoc := limbSum_snoc db rc.1 (BitVec.ofInt 32 (c % 2 ^ db))
    rw [hrc, carryLoop_length, ← hrc] at hsnoc
    have hstep : carryLoop db sub a b (k + 1) = (rc.1 ++ [BitVec.ofInt 32 (c % 2 ^ db)], c / 2 ^ db) := rfl
    rw [hstep, hsnoc, Finset.sum_range_succ, ← ih, Nat.mul_succ, pow_add]
    push_cast
    rw [hdigit]
    linear_combination 2 ^ (db * k) * Int.emod_add_mul_ediv c (2 ^ db) + 2 ^ (db * k) * hc

/-- After the loop and the fold of the signs, the limbs and the carry hold the exact result (R69). -/
theorem carryLoop_foldSigns (db : Nat) (sub : Bool) (a b : BigEnc) (m : Nat) (hdb : db ≤ 32) (ha : a.len ≤ m)
    (hb : b.len ≤ m) :
    (limbSum db (carryLoop db sub a b m).1 m : Int) +
      foldSigns sub a b (carryLoop db sub a b m).2 * 2 ^ (db * m) = exactResult sub (a.val db) (b.val db) := by
  have hloop := carryLoop_sum db sub a b m hdb
  rw [a.val_eq_sum_ext db m ha, b.val_eq_sum_ext db m hb]
  cases sub <;> simp only [limbTerm, foldSigns, exactResult, add_mul, neg_mul, Finset.sum_add_distrib,
    Finset.sum_neg_distrib, if_true, Bool.false_eq_true, if_false] at hloop ⊢ <;> linear_combination hloop

/-! ### The folded carry becomes the sign and a top limb -/

/-- The limbs that `addsub` hands to clamp: one more on top if the folded carry is no sign word (R69). -/
def withTopLimb (db : Nat) (r : List Word) (c : Int) : List Word :=
  if c < -1 then r ++ [BitVec.ofInt 32 (2 ^ db + c)] else if 0 < c then r ++ [BitVec.ofInt 32 c] else r

theorem addsub_eq_clamp (db : Nat) (sub : Bool) (a b : BigEnc) :
    addsub db sub a b =
      let rc := carryLoop db sub a b (max a.len b.len)
      let c := foldSigns sub a b rc.2
      clamp db (decide (c < 0)) (withTopLimb db rc.1 c) := rfl

/-- A folded carry in `[-2, 1]` is a sign word, or a top limb in range with a sign word above it (R69). -/
theorem withTopLimb_cases (db : Nat) (r : List Word) (c : Int) (h1 : 1 ≤ db) (h32 : db ≤ 32) (hlo : -2 ≤ c)
    (hhi : c ≤ 1) :
    (withTopLimb db r c = r ∧ signWord (decide (c < 0)) = c) ∨
    ∃ d : Word, withTopLimb db r c = r ++ [d] ∧ d.toNat < 2 ^ db ∧
      (d.toNat : Int) + signWord (decide (c < 0)) * 2 ^ db = c := by
  have hpow : (2 : Int) ^ 1 ≤ 2 ^ db := pow_le_pow_right₀ (by norm_num) h1
  by_cases htwo : c < -1
  · have hd := toNat_ofInt_of_range db (2 ^ db + c) h32 (by omega) (by omega)
    refine .inr ⟨BitVec.ofInt 32 (2 ^ db + c), if_pos htwo, by zify; omega, ?_⟩
    simp only [hd, signWord, decide_eq_true_eq, if_pos (show c < 0 by omega)]
    omega
  by_cases hone : 0 < c
  · have hd := toNat_ofInt_of_range db c h32 (by omega) (by omega)
    refine .inr ⟨BitVec.ofInt 32 c, (if_neg htwo).trans (if_pos hone), by zify; omega, ?_⟩
    simp only [hd, signWord, decide_eq_true_eq, if_neg (show ¬ c < 0 by omega)]
    omega
  · refine .inl ⟨(if_neg htwo).trans (if_neg hone), ?_⟩
    simp only [signWord, decide_eq_true_eq]
    split <;> omega

/-- With the top limb added, the encoding denotes its limbs and the folded carry above them (R69). -/
theorem withTopLimb_val (db : Nat) (r : List Word) (c : Int) (h1 : 1 ≤ db) (h32 : db ≤ 32) (hlo : -2 ≤ c)
    (hhi : c ≤ 1) :
    BigEnc.val db { sign := decide (c < 0), digits := withTopLimb db r c } =
      limbSum db r r.length + c * 2 ^ (db * r.length) := by
  rcases withTopLimb_cases db r c h1 h32 hlo hhi with ⟨hr, hs⟩ | ⟨d, hr, -, hs⟩ <;>
    simp only [BigEnc.val, BigEnc.len, hr]
  · rw [hs]
  · rw [List.length_append, List.length_singleton, limbSum_snoc, Nat.mul_succ, pow_add]
    push_cast
    linear_combination 2 ^ (db * r.length) * hs

/-- The top limb is in range with the others (R69). -/
theorem withTopLimb_digits (db : Nat) (r : List Word) (c : Int) (h1 : 1 ≤ db) (h32 : db ≤ 32) (hlo : -2 ≤ c)
    (hhi : c ≤ 1) (hr : ∀ d ∈ r, d.toNat < 2 ^ db) : ∀ d ∈ withTopLimb db r c, d.toNat < 2 ^ db := by
  rcases withTopLimb_cases db r c h1 h32 hlo hhi with ⟨h, -⟩ | ⟨d, h, hd, -⟩ <;> rw [h]
  · exact hr
  · intro x hx
    rcases List.mem_append.mp hx with hx | hx
    · exact hr x hx
    · exact List.mem_singleton.mp hx ▸ hd

/-- The carry algorithm computes the canonical encoding of the exact result (R69, R70). -/
theorem addsub_eq_canon (db : Nat) (sub : Bool) (a b : BigEnc) (h1 : 1 ≤ db) (h32 : db ≤ 32) (ha : a.Digits db)
    (hb : b.Digits db) : addsub db sub a b = canon db (exactResult sub (a.val db) (b.val db)) := by
  have hexact := carryLoop_foldSigns db sub a b _ h32 (le_max_left a.len b.len) (le_max_right a.len b.len)
  obtain ⟨hlo, hhi⟩ := foldSigns_range db sub a b (max a.len b.len) ha hb
  have hdigits := carryLoop_digits db sub a b (max a.len b.len) h32
  have hval := withTopLimb_val db (carryLoop db sub a b (max a.len b.len)).1 _ h1 h32 hlo hhi
  rw [carryLoop_length, hexact] at hval
  rw [addsub_eq_clamp, clamp_eq_canon db _ _ h1 h32 (withTopLimb_digits db _ _ h1 h32 hlo hhi hdigits), hval]

/-- Settles O14, for ADD and for SUB. -/
theorem carryAlgorithmMeetsTheExactLaw : Obligations.CarryAlgorithmMeetsTheExactLaw := fun db a b h1 h32 ha hb =>
  ⟨addsub_eq_canon db false a b h1 h32 ha hb, addsub_eq_canon db true a b h1 h32 ha hb⟩

end Sys2Proof.Machine
end

section
/-! PROOFS. ADD and SUB from their operands to the committed register: what commits, what it leaves in the destination,
and what it leaves unchanged (spec 40_addsub.md R67, R68, R70-R78). -/

namespace Sys2Proof.Machine

/-! ### The engine's turn -/

/-- Settles O25: at its turn the engine takes its step; with no turn left `idle` takes the same one. -/
theorem stepRunsTheDecodedInstruction : Obligations.StepRunsTheDecodedInstruction := by
  intro s i hbusy hfault hi
  refine ⟨fun rest hs => ?_, fun hs => ?_⟩
  · rw [step_engine s rest hs ⟨hbusy, hfault⟩]
    exact completeStep_of_ok { s with schedule := rest } i hi
  · rw [step_nil s hs, idle, if_pos ⟨hbusy, hfault⟩, completeStep_of_ok s i hi]

/-! ### The operands and the length of their result -/

/-- What a register of the register file holds has digits in range (R20). -/
theorem BigReg.enc_digits (p : Params) (r : BigReg) (hs : r.Shape p) : r.enc.Digits p.db := by
  obtain ⟨-, -, hlimbs⟩ := hs
  exact fun d hd => hlimbs d (List.mem_of_mem_take hd)

theorem BigReg.enc_len_le (r : BigReg) : r.enc.len ≤ r.len.toNat := List.length_take_le _ _

/-- The result of a command needs at most one limb more than its longer operand (R68). -/
theorem canonLen_resultOf_le (sub : Bool) (p : Params) (b : Block) (rs1 rs2 : Nat) (hp : p.Legal) (hs : b.Shape p) :
    canonLen p.db (resultOf sub p b rs1 rs2) ≤ max (b.reg p rs1).len.toNat (b.reg p rs2).len.toNat + 1 := by
  have hlen := canonLen_exactResult_le p.db sub _ _ hp.1 (BigReg.enc_digits p _ (b.reg_shape p rs1 hs))
    (BigReg.enc_digits p _ (b.reg_shape p rs2 hs))
  have hmax := max_le_max (b.reg p rs1).enc_len_le (b.reg p rs2).enc_len_le
  exact hlen.trans (Nat.succ_le_succ hmax)

/-- With legal operands a command commits, or ends with OVERFLOW because its result does not fit (R70, R72). -/
theorem Block.commits_or_overflow (p : Params) (b : Block) (sub : Bool) (rd rs1 rs2 : Nat) (hrd : rd < p.nreg)
    (h1 : b.OperandOk p rs1) (h2 : b.OperandOk p rs2) :
    b.Commits p sub rd rs1 rs2 ∨
    (p.nlimb < canonLen p.db (resultOf sub p b rs1 rs2) ∧ b.judge p sub rd rs1 rs2 = .error .overflow) := by
  have ⟨hrs1, hw1, hl1, hr1⟩ := h1
  have ⟨hrs2, hw2, hl2, hr2⟩ := h2
  rcases Block.judge_cases p b sub rd rs1 rs2 with h | ⟨-, h | ⟨-, h | ⟨-, h | ⟨-, h | h⟩⟩⟩⟩
  · omega
  · simp [hw1, hw2] at h
  · omega
  · simp [hr1, hr2] at h
  · exact .inr ⟨canon_len .. ▸ h.2, h.1⟩
  · exact .inl ⟨hrd, h1, h2, h.2⟩

/-- A result that does not fit has an operand of NLIMB limbs (R68). -/
theorem Block.max_len_of_overflow (p : Params) (b : Block) (sub : Bool) (rs1 rs2 : Nat) (hp : p.Legal) (hs : b.Shape p)
    (h1 : b.OperandOk p rs1) (h2 : b.OperandOk p rs2) (h : p.nlimb < canonLen p.db (resultOf sub p b rs1 rs2)) :
    max (b.reg p rs1).len.toNat (b.reg p rs2).len.toNat = p.nlimb := by
  have hlen := canonLen_resultOf_le sub p b rs1 rs2 hp hs
  obtain ⟨-, -, hl1, -⟩ := h1
  obtain ⟨-, -, hl2, -⟩ := h2
  omega

/-! ### How a command ends -/

/-- A command whose verdict is OVERFLOW makes that error completion (R82). -/
theorem completeAddSub_overflow (sub : Bool) (rd rs1 rs2 : Nat) (s : State)
    (h : s.block.judge s.params sub rd rs1 rs2 = .error .overflow) :
    (completeAddSub sub rd rs1 rs2 s).block = s.block.finishErr .overflow := by
  rw [completeAddSub_block, h, Block.conclude_error]

/-- A command that does not commit writes no register (R73). -/
theorem completeAddSub_regs_of_not_commits (sub : Bool) (rd rs1 rs2 : Nat) (s : State)
    (h : ¬ s.block.Commits s.params sub rd rs1 rs2) : (completeAddSub sub rd rs1 rs2 s).block.regs = s.block.regs := by
  rw [completeAddSub_block]
  cases hv : s.block.judge s.params sub rd rs1 rs2 with
  | error c => rfl
  | fault r => rfl
  | commit v =>
    obtain ⟨hc, -⟩ := Block.commits_of_judge _ _ _ _ _ _ v hv
    exact absurd hc h

/-- A completion leaves what is neither register file nor flags, ERR, BUSY, DONE or fault (R72, R73, R82). -/
theorem completeAddSub_sameRest (sub : Bool) (rd rs1 rs2 : Nat) (s : State) :
    s.SameRest (completeAddSub sub rd rs1 rs2 s) := by
  obtain ⟨hcmd, hbusyerr, hie, -⟩ := s.block.conclude_rest s.params rd (s.block.judge s.params sub rd rs1 rs2)
  exact ⟨rfl, rfl, rfl, rfl, hcmd, hbusyerr, hie⟩

/-- A completion keeps the number of registers (R73). -/
theorem completeAddSub_regs_length (sub : Bool) (rd rs1 rs2 : Nat) (s : State) :
    (completeAddSub sub rd rs1 rs2 s).block.regs.length = s.block.regs.length := by
  obtain ⟨-, -, -, hlen, -⟩ := s.block.conclude_rest s.params rd (s.block.judge s.params sub rd rs1 rs2)
  exact hlen

/-! ### The committed register, word by word -/

/-- Below the top, a committed register holds the committed digits (R73). -/
theorem BigReg.committed_getD_of_lt (p : Params) (e : BigEnc) (i : Nat) (hi : i < e.len) :
    (BigReg.committed p e).limbs.getD i 0#32 = e.digits.getD i 0#32 := List.getD_append _ _ _ i hi

/-- At and above the top, a committed register holds 0 (R73). -/
theorem BigReg.committed_getD_of_le (p : Params) (e : BigEnc) (i : Nat) (hi : e.len ≤ i) :
    (BigReg.committed p e).limbs.getD i 0#32 = 0#32 := by
  rw [BigReg.committed_limbs, List.getD_append_right _ _ _ i hi, List.getD_eq_getElem?_getD, List.getElem?_replicate]
  split <;> rfl

/-- A commit marks every limb word as written (R73). -/
theorem BigReg.committed_written (p : Params) (e : BigEnc) (i : Nat) (hi : i < p.nlimb) :
    (BigReg.committed p e).limbWritten.getD i false = true := by simp [List.getD, hi]

section commits
variable {sub : Bool} {rd rs1 rs2 : Nat} {s : State}

/-- The destination of a commit holds the canonical encoding of the exact result (R70, R73). -/
theorem completeAddSub_enc (hp : s.params.Legal) (hs : s.block.Shape s.params)
    (hc : s.block.Commits s.params sub rd rs1 rs2) :
    ((completeAddSub sub rd rs1 rs2 s).block.reg s.params rd).enc =
      canon s.params.db (resultOf sub s.params s.block rs1 rs2) := by
  have ⟨_, _, _, hfit⟩ := hc
  rw [completeAddSub_reg_self sub rd rs1 rs2 s hs hc, BigReg.committed_enc _ _ hp hfit]

/-- The flags after a commit are those of the exact result (R77). -/
theorem completeAddSub_flags (hc : s.block.Commits s.params sub rd rs1 rs2) :
    let t := completeAddSub sub rd rs1 rs2 s
    (t.block.z = true ↔ resultOf sub s.params s.block rs1 rs2 = 0) ∧
    (t.block.n = true ↔ resultOf sub s.params s.block rs1 rs2 < 0) := by
  rw [completeAddSub_commit sub rd rs1 rs2 s hc]
  exact ⟨zFlag_eq_true _, nFlag_eq_true _⟩

/-- The destination of a commit is canonical (R67, R73). -/
theorem completeAddSub_canonical (hp : s.params.Legal) (hs : s.block.Shape s.params)
    (hc : s.block.Commits s.params sub rd rs1 rs2) :
    ((completeAddSub sub rd rs1 rs2 s).block.reg s.params rd).enc.Canonical s.params.db := by
  rw [completeAddSub_enc hp hs hc]
  exact canon_canonical _ _ hp.1 hp.2.1

/-- A command that commits makes the successful completion, and nothing else changes (R72, R73, R77). -/
theorem completeAddSub_commitOf (hp : s.params.Legal) (hs : s.block.Shape s.params)
    (hc : s.block.Commits s.params sub rd rs1 rs2) :
    CommitOf s (completeAddSub sub rd rs1 rs2 s) rd (resultOf sub s.params s.block rs1 rs2) := by
  have ⟨_, _, _, hfit⟩ := hc
  obtain ⟨hz, hn⟩ := completeAddSub_flags hc
  have hreg := completeAddSub_reg_self sub rd rs1 rs2 s hs hc
  have hblock := congrArg State.block (completeAddSub_commit sub rd rs1 rs2 s hc)
  refine ⟨completeAddSub_val sub rd rs1 rs2 s hp hs hc, completeAddSub_enc hp hs hc, completeAddSub_canonical hp hs hc,
    ?_, ?_, Block.reg_shape _ _ rd (completeAddSub_shape sub rd rs1 rs2 s hp hs hc), ?_, ?_, hz, hn,
    completeAddSub_err sub rd rs1 rs2 s hc, ?_, ?_, fun k hk => completeAddSub_reg_ne sub rd rs1 rs2 k s hk,
    completeAddSub_regs_length sub rd rs1 rs2 s, ?_, completeAddSub_sameRest sub rd rs1 rs2 s⟩
  · rw [hreg, BigReg.committed_len_toNat _ _ hp hfit]
  · rw [hreg]; exact BigReg.committed_getD_of_le _ _
  · rw [hreg]; rfl
  · rw [hreg]; exact BigReg.committed_written _ _
  all_goals rw [hblock]; rfl

/-- The length that a commit leaves in its destination (R68). -/
theorem completeAddSub_len_le (hp : s.params.Legal) (hs : s.block.Shape s.params)
    (hc : s.block.Commits s.params sub rd rs1 rs2) :
    ((completeAddSub sub rd rs1 rs2 s).block.reg s.params rd).len.toNat ≤
      max (s.block.reg s.params rs1).len.toNat (s.block.reg s.params rs2).len.toNat + 1 := by
  have ⟨_, _, _, hfit⟩ := hc
  rw [completeAddSub_reg_self sub rd rs1 rs2 s hs hc, BigReg.committed_len_toNat _ _ hp hfit, canon_len]
  exact canonLen_resultOf_le sub s.params s.block rs1 rs2 hp hs

end commits

/-- Settles O16: the sum is what ADD commits. -/
theorem addCommitsTheExactSum : Obligations.AddCommitsTheExactSum := fun rd rs1 rs2 s hp hs hc =>
  ⟨_, exec_add rd rs1 rs2 s, completeAddSub_commitOf hp hs hc, completeAddSub_len_le hp hs hc⟩

/-- Settles O17: the difference is what SUB commits. -/
theorem subCommitsTheExactDifference : Obligations.SubCommitsTheExactDifference := fun rd rs1 rs2 s hp hs hc =>
  ⟨_, exec_sub rd rs1 rs2 s, completeAddSub_commitOf hp hs hc, completeAddSub_len_le hp hs hc⟩

/-- Settles O12: clamp by its loop's specification, and every commit by `canon`. -/
theorem clampDropsExactlyTheLeadingSignLimbs : Obligations.ClampDropsExactlyTheLeadingSignLimbs :=
  ⟨fun db sign r _ h32 => ⟨clamp_val db sign r h32, rfl, clamp_canonical db sign r, clamp_append db sign r⟩,
    BigEnc.canonical_iff,
    fun sub rd rs1 rs2 s hp hs hc => ⟨_, exec_addSubInstr sub rd rs1 rs2 s, completeAddSub_canonical hp hs hc⟩⟩

/-- Settles O13: the ranges, and that ERR is OVERFLOW only when the result does not fit. -/
theorem resultNeedsAtMostOneMoreLimb : Obligations.ResultNeedsAtMostOneMoreLimb := by
  refine ⟨fun db a b h1 _ ha hb => ?_, fun sub rd rs1 rs2 s hp hs hrd ho1 ho2 => ?_⟩
  · obtain ⟨hlo, hhi⟩ := a.val_range db ha
    refine ⟨⟨hlo, Int.le_sub_one_of_lt hhi⟩, exactResult_range db false a b ha hb, exactResult_range db true a b ha hb,
      ?_, ?_⟩ <;> rw [canon_len]
    · exact canonLen_exactResult_le db false a b h1 ha hb
    · exact canonLen_exactResult_le db true a b h1 ha hb
  · refine ⟨_, exec_addSubInstr sub rd rs1 rs2 s, fun herr => ?_⟩
    rcases s.block.commits_or_overflow s.params sub rd rs1 rs2 hrd ho1 ho2 with hc | ⟨hlong, -⟩
    · rw [completeAddSub_err sub rd rs1 rs2 s hc] at herr
      exact absurd herr (by decide)
    · exact s.block.max_len_of_overflow s.params sub rs1 rs2 hp hs ho1 ho2 hlong

/-- Settles O18: the committed register word by word, and no write without a commit. -/
theorem commitWritesEveryWordOfRd : Obligations.CommitWritesEveryWordOfRd := by
  intro sub rd rs1 rs2 s hp hs
  refine ⟨_, exec_addSubInstr sub rd rs1 rs2 s, fun hc => ?_, completeAddSub_regs_of_not_commits sub rd rs1 rs2 s⟩
  intro e r
  have hr : r = BigReg.committed s.params e := completeAddSub_reg_self sub rd rs1 rs2 s hs hc
  have hcanonical : r.enc.Canonical s.params.db := completeAddSub_canonical hp hs hc
  obtain ⟨-, -, -, hfit⟩ := hc
  refine ⟨?_, ?_, ?_, ?_, ?_, ?_, hcanonical, fun k hk => completeAddSub_reg_ne sub rd rs1 rs2 k s hk⟩ <;> rw [hr]
  · rfl
  · exact BigReg.committed_len_toNat _ _ hp hfit
  · exact BigReg.committed_getD_of_lt _ _
  · exact fun i hi _ => BigReg.committed_getD_of_le _ _ i hi
  · rfl
  · exact BigReg.committed_written _ _

/-! ### The frame of a completion -/

/-- Only the offset of `STATUS` leads to it (R41). -/
theorem targetOf_ne_status (p : Params) (off : Nat) (h : off ≠ 0x008) : targetOf p off ≠ .status := by
  simp only [targetOf]
  split_ifs <;> simp

/-- A register-file word of register `k` lies in the 1 KiB of register `k` (R42), at whatever alignment. -/
theorem targetOf_reg_window (p : Params) (off k : Nat) (h : targetOf p off = .hdr k ∨ ∃ i, targetOf p off = .limb k i) :
    hdrOffset k ≤ off ∧ off < hdrOffset (k + 1) := by
  have hk : 0x1000 ≤ off ∧ (off - 0x1000) / 0x400 = k := by
    simp only [targetOf] at h
    split_ifs at h <;> simp at h
    all_goals omega
  unfold hdrOffset
  omega

/-- `BusRead` of a word other than STATUS looks at LASTCMD, IE and the one register that the word is of (R45). -/
theorem Block.readTarget_congr (p : Params) (b b' : Block) (t : Target) (hstatus : t ≠ .status)
    (hcmd : b'.lastcmd = b.lastcmd) (hie : b'.ie = b.ie)
    (hreg : ∀ k, (t = .hdr k ∨ ∃ i, t = .limb k i) → b'.reg p k = b.reg p k) :
    b'.readTarget p t = b.readTarget p t := by
  cases t with
  | cfg => rfl
  | cmd => exact congrArg some hcmd
  | status => exact absurd rfl hstatus
  | ctrl => simp only [Block.readTarget, Block.ctrlWord, hie]
  | hdr k => simp only [Block.readTarget, hreg k (.inl rfl)]
  | limb k i => simp only [Block.readTarget, hreg k (.inr ⟨i, rfl⟩)]
  | razwi => rfl

/-- Settles O19: a completion changes `rd` and the status fields, and an offset outside them reads neither. -/
theorem completionLeavesOtherWordsUnchanged : Obligations.CompletionLeavesOtherWordsUnchanged := by
  intro sub rd rs1 rs2 s t h
  obtain rfl : completeAddSub sub rd rs1 rs2 s = t := by
    rw [exec_addSubInstr] at h
    exact Host.Outcome.next.inj h
  have hrest := completeAddSub_sameRest sub rd rs1 rs2 s
  have hreg := fun k (hk : k ≠ rd) => completeAddSub_reg_ne sub rd rs1 rs2 k s hk
  refine ⟨hreg, completeAddSub_regs_length sub rd rs1 rs2 s, hrest, fun off hstatus hoff => ?_⟩
  obtain ⟨-, -, -, -, hcmd, -, hie⟩ := hrest
  refine Block.readTarget_congr _ _ _ _ (targetOf_ne_status _ off hstatus) hcmd hie fun k hk => hreg k ?_
  rintro rfl
  obtain ⟨hlo, hhi⟩ := targetOf_reg_window _ off k hk
  omega

/-! ### Aliasing, comparison, and the arithmetic law -/

/-- Settles O20: the result is taken from the state before the commit, whichever indices coincide. -/
theorem aliasingUsesTheOldValues : Obligations.AliasingUsesTheOldValues := by
  intro r q s hp hs
  have hval := fun sub rd rs1 rs2 (hc : s.block.Commits s.params sub rd rs1 rs2) =>
    completeAddSub_val sub rd rs1 rs2 s hp hs hc
  refine ⟨fun sub rd rs1 rs2 hc => ⟨_, exec_addSubInstr sub rd rs1 rs2 s, hval sub rd rs1 rs2 hc⟩,
    fun hc => ⟨_, exec_add r r r s, ?_⟩, fun ho => ⟨_, exec_sub r r r s, ?_⟩,
    fun hc => ⟨_, exec_sub r q r s, hval true r q r hc⟩⟩
  · rw [hval false r r r hc, resultOf_false, two_mul]
  · have hc := s.block.commits_zero s.params r r ho.1 ho
    obtain ⟨hz, -⟩ := completeAddSub_flags hc
    refine ⟨?_, hz.mpr (by simp), completeAddSub_err true r r r s hc⟩
    rw [completeAddSub_enc hp hs hc, resultOf_true, sub_self]
    exact canon_signWord _ false hp.1 hp.2.1

/-- Settles O22: the flags of a committed difference order the operands; otherwise the result did not fit. -/
theorem subFlagsCompareTheOperands : Obligations.SubFlagsCompareTheOperands := by
  intro rd rs1 rs2 s hp hs hrd ho1 ho2
  refine ⟨_, exec_sub rd rs1 rs2 s, ?_⟩
  intro a b
  rcases s.block.commits_or_overflow s.params true rd rs1 rs2 hrd ho1 ho2 with hc | ⟨hlong, hv⟩
  · have herr := completeAddSub_err true rd rs1 rs2 s hc
    refine ⟨fun _ => ?_, fun hne => absurd herr hne⟩
    obtain ⟨hz, hn⟩ := completeAddSub_flags hc
    have hlt : (completeAddSub true rd rs1 rs2 s).block.n = true ↔ a < b := hn.trans sub_neg
    have heq : (completeAddSub true rd rs1 rs2 s).block.z = true ↔ a = b := hz.trans sub_eq_zero
    refine ⟨hlt, heq, ?_, completeAddSub_enc hp hs hc⟩
    rw [← Bool.not_eq_true, ← Bool.not_eq_true, hlt, heq]
    omega
  · rw [completeAddSub_overflow true rd rs1 rs2 s hv]
    exact ⟨fun h => absurd h (by simp),
      fun _ => ⟨rfl, s.block.max_len_of_overflow s.params true rs1 rs2 hp hs ho1 ho2 hlong⟩⟩

/-- Settles O24: a result that fits is committed exactly; the committed value does not mention DB. -/
theorem arithmeticIsExactForEveryDigitWidth : Obligations.ArithmeticIsExactForEveryDigitWidth := by
  refine ⟨fun sub rd rs1 rs2 s hp hs hrd ho1 ho2 => ?_, fun sub rd rs1 rs2 s s' hp hs hc hp' hs' hc' h1 h2 => ?_⟩
  · intro v
    have hv : v = resultOf sub s.params s.block rs1 rs2 := rfl
    refine ⟨_, exec_addSubInstr sub rd rs1 rs2 s, ?_⟩
    rw [hv, canon_len]
    rcases s.block.commits_or_overflow s.params sub rd rs1 rs2 hrd ho1 ho2 with hc | ⟨hlong, hj⟩
    · refine ⟨fun _ => ⟨completeAddSub_enc hp hs hc, completeAddSub_err sub rd rs1 rs2 s hc⟩, fun hlong => ?_⟩
      obtain ⟨-, -, -, hfit⟩ := hc
      rw [canon_len] at hfit
      omega
    · rw [completeAddSub_overflow sub rd rs1 rs2 s hj]
      exact ⟨fun hfit => by omega, fun _ => ⟨rfl, rfl⟩⟩
  · refine ⟨_, _, exec_addSubInstr sub rd rs1 rs2 s, exec_addSubInstr sub rd rs1 rs2 s', ?_⟩
    rw [completeAddSub_val sub rd rs1 rs2 s hp hs hc, completeAddSub_val sub rd rs1 rs2 s' hp' hs' hc']
    exact congrArg₂ (exactResult sub) h1 h2

end Sys2Proof.Machine
end

section
/-! PROOFS. How a command ends without a commit (spec 60_exceptions.md R82-R84): each check with its verdict, the effect of
an error and of a model fault, and what can still happen once a model fault is recorded. -/

namespace Sys2Proof.Machine

/-! ### The verdict of each check -/

/-- A limb that counts and is not written keeps a register from being ready (10_state.md R22). -/
theorem BigReg.limbsReady_eq_false_iff (r : BigReg) :
    r.limbsReady = false ↔ ∃ i < r.len.toNat, r.limbWritten.getD i false = false := by
  rw [← Bool.not_eq_true, BigReg.limbsReady_iff]
  simp

section verdicts
variable {p : Params} {b : Block} {sub : Bool} {rd rs1 rs2 : Nat}

theorem Block.judge_badReg (h : p.nreg ≤ rd ∨ p.nreg ≤ rs1 ∨ p.nreg ≤ rs2) :
    b.judge p sub rd rs1 rs2 = .error .badReg := by
  rcases b.judge_cases p sub rd rs1 rs2 with ⟨hv, -⟩ | ⟨hreg, -⟩
  · exact hv
  · omega

theorem Block.judge_unwrittenHeader (hrd : rd < p.nreg) (h1 : rs1 < p.nreg) (h2 : rs2 < p.nreg)
    (h : (b.reg p rs1).hdrWritten = false ∨ (b.reg p rs2).hdrWritten = false) :
    b.judge p sub rd rs1 rs2 = .fault .unwrittenOperand := by
  rcases b.judge_cases p sub rd rs1 rs2 with ⟨-, hbad⟩ | ⟨-, ⟨hv, -⟩ | ⟨⟨hw1, hw2⟩, -⟩⟩
  · omega
  · exact hv
  · simp [hw1, hw2] at h

/-- The limbs are looked at after the headers and the lengths (R83). -/
theorem Block.judge_unwrittenLimb (hrd : rd < p.nreg) (h1 : rs1 < p.nreg) (h2 : rs2 < p.nreg)
    (hl1 : (b.reg p rs1).len.toNat ≤ p.nlimb) (hl2 : (b.reg p rs2).len.toNat ≤ p.nlimb)
    (h : (b.reg p rs1).limbsReady = false ∨ (b.reg p rs2).limbsReady = false) :
    b.judge p sub rd rs1 rs2 = .fault .unwrittenOperand := by
  rcases b.judge_cases p sub rd rs1 rs2 with
    ⟨-, hbad⟩ | ⟨-, ⟨hv, -⟩ | ⟨-, ⟨-, hlong⟩ | ⟨-, ⟨hv, -⟩ | ⟨⟨hr1, hr2⟩, -⟩⟩⟩⟩
  · omega
  · exact hv
  · omega
  · exact hv
  · simp [hr1, hr2] at h

theorem Block.judge_overflow (hrd : rd < p.nreg) (h1 : b.OperandOk p rs1) (h2 : b.OperandOk p rs2)
    (h : p.nlimb < (canon p.db (resultOf sub p b rs1 rs2)).len) :
    b.judge p sub rd rs1 rs2 = .error .overflow := by
  rcases b.commits_or_overflow p sub rd rs1 rs2 hrd h1 h2 with ⟨-, -, -, hfit⟩ | ⟨-, hv⟩
  · omega
  · exact hv

end verdicts

/-! ### The effect of an error and of a model fault -/

/-- `finish_err(c)` sets the status fields and changes nothing else (R82). -/
theorem errorCompletion_finishErr (s : State) (c : ErrCode) :
    ErrorCompletion s { s with block := s.block.finishErr c } c :=
  ⟨rfl, rfl, rfl, rfl, rfl, rfl, rfl, rfl, rfl, rfl, rfl, rfl, rfl, rfl⟩

section effects
variable {s : State} {sub : Bool} {rd rs1 rs2 : Nat}

theorem completeAddSub_errorCompletion {c : ErrCode} (h : s.block.judge s.params sub rd rs1 rs2 = .error c) :
    ErrorCompletion s (completeAddSub sub rd rs1 rs2 s) c := by
  rw [completeAddSub, h]
  exact errorCompletion_finishErr s c

theorem completeAddSub_faultRecorded (h : s.block.judge s.params sub rd rs1 rs2 = .fault .unwrittenOperand) :
    FaultRecorded s (completeAddSub sub rd rs1 rs2 s) := by
  rw [completeAddSub, h]
  rfl

end effects

/-- Settles O21, check by check: the verdict of each and its effect. That `Completes` admits the empty schedule is the
model's form of fairness (log entry 4). -/
theorem checksReportTheFirstThatApplies : Obligations.ChecksReportTheFirstThatApplies := by
  refine ⟨?illegal, fun sub rd rs1 rs2 s => ⟨_, exec_addSubInstr sub rd rs1 rs2 s, ?_⟩⟩
  case illegal =>
    rintro s hc ⟨e, he⟩
    exact ⟨_, hc.step_eq.trans (completeStep_of_error s.popped e he), errorCompletion_finishErr s.popped .illegal⟩
  intro p a c
  refine ⟨fun hbad => completeAddSub_errorCompletion (Block.judge_badReg hbad), fun hrd h1 h2 =>
    ⟨fun hhdr => completeAddSub_faultRecorded (Block.judge_unwrittenHeader hrd h1 h2 hhdr), fun hw1 hw2 =>
      ⟨fun hlong => completeAddSub_errorCompletion (Block.judge_badLen _ _ _ _ _ _ hrd h1 h2 hw1 hw2 hlong),
        fun hl1 hl2 => ⟨fun hlimb => ?unwrittenLimb, fun hr1 hr2 hlong => ?overflow⟩⟩⟩⟩
  case unwrittenLimb =>
    rw [← BigReg.limbsReady_eq_false_iff, ← BigReg.limbsReady_eq_false_iff] at hlimb
    exact completeAddSub_faultRecorded (Block.judge_unwrittenLimb hrd h1 h2 hl1 hl2 hlimb)
  case overflow =>
    rw [← BigReg.limbsReady_iff] at hr1 hr2
    exact completeAddSub_errorCompletion (Block.judge_overflow hrd ⟨h1, hw1, hl1, hr1⟩ ⟨h2, hw2, hl2, hr2⟩ hlong)

/-! ### After a recorded model fault -/

/-- With a fault recorded and no turn left the machine stops: the engine has no further step (R84; log entry 7). -/
theorem idle_of_recordedFault (s : State) (r : FaultReason) (hf : s.block.fault = some r) :
    idle s = .fault (.recorded r) := by
  have hdisabled : ¬ s.block.Enabled := by simp [Block.Enabled, hf]
  rw [idle, if_neg hdisabled, hf]

/-- With BUSY = 1 and a fault recorded, an event other than reset can only drop a write or touch DONE, BUSYERR and IE
(20_memory.md R48, 60_exceptions.md R84). -/
theorem StepEvent.of_recordedFault {s : State} {b : Block} {r : FaultReason} (hev : StepEvent s b)
    (hf : s.block.fault = some r) (hbusy : s.block.busy = true) :
    s.Resets ∨ (b.fault = s.block.fault ∧ b.busy = s.block.busy ∧ b.regs = s.block.regs ∧
      b.lastcmd = s.block.lastcmd) := by
  cases hev with
  | completes hc hb =>
    obtain ⟨⟨-, hnone⟩, -⟩ := hc
    simp [hf] at hnone
  | accepts w ha hb =>
    obtain ⟨-, hidle⟩ := ha
    simp [hbusy] at hidle
  | stores k off w reg hidle hk hw hoff hr hb => simp [hbusy] at hidle
  | resets hr hb => exact .inl hr
  | drops off w hw hbusy hoff hb => rw [hb]; exact .inr ⟨rfl, rfl, rfl, rfl⟩
  | clears w hw hb => rw [hb]; exact .inr ⟨rfl, rfl, rfl, rfl⟩
  | enables w hw hb => rw [hb]; exact .inr ⟨rfl, rfl, rfl, rfl⟩
  | keeps hb => rw [hb]; exact .inr ⟨rfl, rfl, rfl, rfl⟩

/-- Settles O28: only reset touches the fault, and BUSY = 1 keeps the state from being final. That reset leaves the fault is
the model's reading (log entry 8), and the stop with no turn left is its form (log entry 7). -/
theorem recordedFaultIsNeverLeft : Obligations.RecordedFaultIsNeverLeft := by
  intro s r hf hbusy
  refine ⟨fun t h => ?_, fun hs => (step_nil s hs).trans (idle_of_recordedFault s r hf)⟩
  obtain ⟨hev, -⟩ := step_event s t h
  refine (hev.of_recordedFault hf hbusy).imp_right fun ⟨hfault, hbusy', hregs, hcmd⟩ => ?_
  have hbusyt : t.block.busy = true := hbusy'.trans hbusy
  exact ⟨hfault.trans hf, hbusyt, hregs, hcmd, fun ⟨_, hidle, _⟩ => by simp [hbusyt] at hidle⟩

end Sys2Proof.Machine
end

section
/-! PROOFS. A command in flight (spec 70_reset_and_hazards.md R100-R104): what host accesses leave alone while it runs, that
its completion does not depend on them, and that it ends; and the end of a run (R106). -/

namespace Sys2Proof.Machine

/-! ### STATUS while a command is in flight -/

/-- Settles O49: of the fields of STATUS, BUSYERR alone can vary under the invariant while BUSY is 1 (R100). -/
theorem statusReadsBusyAloneWhileInFlight : Obligations.StatusReadsBusyAloneWhileInFlight := by
  rintro s ⟨-, -, -, -, -, hfly, -⟩ hbusy
  obtain ⟨hdone, herr, hz, hn⟩ := hfly hbusy
  refine s.readsAs_of_readTarget 0x008 _ (by decide) (by decide) ?_
  rw [targetOf_status, Block.readTarget, Block.statusWord_eq, hbusy, hdone, herr, hz, hn]
  cases s.block.busyerr <;> rfl

/-! ### Host accesses while a command is in flight -/

/-- `b'` holds the same command in flight as `b`: they differ in BUSYERR, IE and DONE alone, and DONE has not been set.
That is all that host accesses can do to a block with BUSY = 1 (R101, 20_memory.md R48). -/
structure Block.SameInFlight (b b' : Block) : Prop where
  rest : b' = { b with busyerr := b'.busyerr, ie := b'.ie, done := b'.done }
  done : b.done = false → b'.done = false

theorem Block.SameInFlight.refl (b : Block) : b.SameInFlight b := ⟨rfl, id⟩

theorem Block.SameInFlight.trans {b b' b'' : Block} (h : b.SameInFlight b') (h' : b'.SameInFlight b'') :
    b.SameInFlight b'' := by
  refine ⟨?_, h'.done ∘ h.done⟩
  rw [h'.rest, h.rest]

theorem Block.SameInFlight.busy_eq {b b' : Block} (h : b.SameInFlight b') : b'.busy = b.busy := by rw [h.rest]

theorem Block.SameInFlight.fault_eq {b b' : Block} (h : b.SameInFlight b') : b'.fault = b.fault := by rw [h.rest]

/-- With BUSY = 1 a write to CMD or the register file is dropped, and the others touch IE, DONE and BUSYERR alone (R48). -/
theorem Block.writeTarget_sameInFlight (p : Params) (b : Block) (w : Word) (t : Target) (hb : b.busy = true) :
    b.SameInFlight (b.writeTarget p w t) := by
  have hdrop : b.SameInFlight b.dropWrite := ⟨rfl, id⟩
  cases t with
  | cmd => rwa [Block.writeTarget_cmd_busy p b w hb]
  | hdr k => rwa [Block.writeTarget_isRegFile_busy p b w _ hb rfl]
  | limb k i => rwa [Block.writeTarget_isRegFile_busy p b w _ hb rfl]
  | status => exact ⟨rfl, fun hd => by simp [hd]⟩
  | ctrl => exact ⟨rfl, id⟩
  | cfg => exact .refl b
  | razwi => exact .refl b

/-- With BUSY = 1 an access keeps the command in flight (R101, R102). -/
theorem Access.perform_sameInFlight (a : Access) (s : State) (hb : s.block.busy = true) :
    (a.perform s).params = s.params ∧ (a.perform s).schedule = s.schedule ∧
      s.block.SameInFlight (a.perform s).block := by
  cases a with
  | read width addr =>
    obtain ⟨hp, hblock, hs⟩ := hostRead_rest (targetOf s.params (addr - s.params.base)) s
    refine ⟨hp, hs, ?_⟩
    rw [Access.perform, hblock]
    exact .refl _
  | write width addr w => exact ⟨rfl, rfl, Block.writeTarget_sameInFlight _ _ w _ hb⟩

/-- The same, for a legal access as the next step. -/
theorem step_host_sameInFlight (s : State) (a : Access) (rest : List Turn) (hs : s.schedule = .host a :: rest)
    (hl : a.Legal s.params) (hb : s.block.busy = true) :
    ∃ t, step s = .next t ∧ t.params = s.params ∧ t.schedule = rest ∧ s.block.SameInFlight t.block :=
  ⟨_, (step_cons s _ rest hs).trans (hostTurn_legal a { s with schedule := rest } hl),
    a.perform_sameInFlight { s with schedule := rest } hb⟩

/-- Any number of legal accesses keeps the command in flight (R102). -/
theorem run_accesses_sameInFlight (accesses : List Access) (turns : List Turn) (k : Nat) (s : State)
    (hs : s.schedule = accesses.map Turn.host ++ turns) (hb : s.block.busy = true)
    (hl : ∀ a ∈ accesses, a.Legal s.params) :
    ∃ t : State, Sys2Proof.core.run (accesses.length + k) s = Sys2Proof.core.run k t ∧ t.params = s.params ∧
      t.schedule = turns ∧ s.block.SameInFlight t.block := by
  induction accesses generalizing s with
  | nil => exact ⟨s, by rw [List.length_nil, Nat.zero_add], rfl, hs, .refl _⟩
  | cons a accesses ih =>
    obtain ⟨ha, hrest⟩ := List.forall_mem_cons.mp hl
    obtain ⟨u, hstep, hpu, hsu, hsame⟩ := step_host_sameInFlight s a _ hs ha hb
    obtain ⟨t, hrun, hpt, hst, hsame'⟩ := ih u hsu (hsame.busy_eq.trans hb) (hpu ▸ hrest)
    refine ⟨t, ?_, hpt.trans hpu, hst, hsame.trans hsame'⟩
    rw [List.length_cons, Nat.add_right_comm, core_run_next _ s u hstep, hrun]

/-- A completion reads neither BUSYERR nor IE, and leaves both (R72, R82). -/
theorem Block.conclude_verdict_congr (p : Params) (b : Block) (busyerr ie : Bool) :
    let b' := { b with busyerr := busyerr, ie := ie }
    b'.conclude p b'.dest (b'.verdict p) = { b.conclude p b.dest (b.verdict p) with busyerr := busyerr, ie := ie } := by
  intro b'
  have hdest : b'.dest = b.dest := rfl
  have hverdict : b'.verdict p = b.verdict p := rfl
  rw [hdest, hverdict]
  cases b.verdict p <;> rfl

/-- Blocks with the same command in flight, DONE at 0, complete alike (R102). -/
theorem Block.SameInFlight.conclude_eq {b b' : Block} (h : b.SameInFlight b') (p : Params) (hd : b.done = false) :
    b'.conclude p b'.dest (b'.verdict p) =
      { b.conclude p b.dest (b.verdict p) with busyerr := b'.busyerr, ie := b'.ie } := by
  have hb' : b' = { b with busyerr := b'.busyerr, ie := b'.ie } := by
    conv_lhs => rw [h.rest, h.done hd, ← hd]
  generalize b'.busyerr = busyerr, b'.ie = ie at hb' ⊢
  subst hb'
  exact Block.conclude_verdict_congr p b busyerr ie

/-- The step of a state that completes, as one equation (R72). -/
theorem State.Completes.step_eq_next {s : State} (hc : s.Completes) :
    step s = .next { s.popped with block := s.block.conclude s.params s.block.dest (s.block.verdict s.params) } :=
  hc.step_eq.trans (completeStep_eq s.popped)

/-- Settles O40: the accesses keep the command in flight, and what it completes to depends on nothing that they touch. -/
theorem accessesWhileBusyDoNotChangeTheResult : Obligations.AccessesWhileBusyDoNotChangeTheResult := by
  rintro s accesses rest ⟨-, -, -, -, -, hfly, -⟩ hbusy hfault hlegal
  obtain ⟨hdone, -⟩ := hfly hbusy
  have hc : State.Completes { s with schedule := .engine :: rest } := ⟨⟨hbusy, hfault⟩, .inr rfl⟩
  obtain ⟨u, hrun, hpu, hsu, hsame⟩ := run_accesses_sameInFlight accesses (.engine :: rest) 1
    { s with schedule := accesses.map Turn.host ++ .engine :: rest } rfl hbusy hlegal
  have hcu : u.Completes := ⟨⟨hsame.busy_eq.trans hbusy, hsame.fault_eq.trans hfault⟩, .inr (by rw [hsu]; rfl)⟩
  refine ⟨_, _, hc.step_eq_next, hrun.trans (core_run_next 0 u _ hcu.step_eq_next), ?_, ?_⟩
  · simp [hsu]
  · have hblock := hsame.conclude_eq s.params hdone
    simp only [hpu, hblock]

/-! ### A command in flight ends -/

/-- A completion ends the command, or records the model fault (R72, R84). -/
theorem Block.conclude_ends (p : Params) (b : Block) (rd : Nat) (v : Verdict) :
    (b.conclude p rd v).busy = false ∨ (b.conclude p rd v).fault ≠ none := by
  by_cases hfault : (b.conclude p rd v).fault = none
  · exact .inl (Block.conclude_busy_done p b rd v hfault).1
  · exact .inr hfault

/-- Settles O29, by induction on the schedule: an access keeps the command in flight, and any other turn, or none, ends it
(the last is the model's form of fairness, log entry 4). -/
theorem commandInFlightEnds : Obligations.CommandInFlightEnds := by
  intro s hbusy hfault hlegal
  have completes (s : State) (hc : s.Completes) : ∃ k t, k ≤ s.schedule.length + 1 ∧
      Sys2Proof.core.run k s = .next t ∧ (t.block.busy = false ∨ t.block.fault ≠ none) :=
    ⟨1, _, Nat.le_add_left _ _, core_run_next 0 s _ hc.step_eq_next, Block.conclude_ends _ _ _ _⟩
  induction hs : s.schedule generalizing s with
  | nil => exact hs ▸ completes s ⟨⟨hbusy, hfault⟩, .inl hs⟩
  | cons u rest ih =>
    cases u with
    | engine => exact hs ▸ completes s ⟨⟨hbusy, hfault⟩, .inr (by rw [hs]; rfl)⟩
    | reset => exact ⟨1, _, Nat.le_add_left _ _, core_run_next 0 s _ (step_cons s _ rest hs), .inl rfl⟩
    | host a =>
      rw [hs, List.forall_mem_cons] at hlegal
      obtain ⟨ha, hrest⟩ := hlegal
      obtain ⟨u, hstep, hpu, hsu, hsame⟩ := step_host_sameInFlight s a rest hs ha hbusy
      obtain ⟨k, t, hk, hrun, hend⟩ := ih u (hsame.busy_eq.trans hbusy) (hsame.fault_eq.trans hfault)
        (by rwa [hsu, hpu]) hsu
      exact ⟨k + 1, t, Nat.succ_le_succ hk, (core_run_next k s u hstep).trans hrun, hend⟩

/-! ### The end of a run -/

/-- From a final state a step, unless it is reset, takes a turn off the schedule and does nothing else (R106; that it
stutters so is the model's form, log entry 3). -/
theorem step_of_final (s : State) (hf : s.Final) (hr : ∀ u ∈ s.schedule, u ≠ .reset) : step s = .next s.popped := by
  obtain ⟨hhost, hidle, hnone⟩ := hf
  have hdisabled : ¬ s.block.Enabled := by simp [Block.Enabled, hidle]
  cases hs : s.schedule with
  | nil =>
    have hpop : s.popped = s := by rw [State.popped, hs, List.tail_nil, ← hs]
    rw [step_nil s hs, idle, if_neg hdisabled, hnone, hpop]
  | cons u rest =>
    have hu : u ∈ s.schedule := by simp [hs]
    rw [step_cons s u rest hs, State.popped, hs, List.tail_cons]
    cases u with
    | host a => exact absurd (hhost _ hu) (by simp [Turn.isHost])
    | reset => exact absurd rfl (hr _ hu)
    | engine => exact if_neg hdisabled

/-- Settles O30, by induction on the number of steps. -/
theorem finalStatesKeepTheBlock : Obligations.FinalStatesKeepTheBlock := by
  intro k
  induction k with
  | zero => exact fun s hf _ => ⟨s, rfl, rfl, hf⟩
  | succ k ih =>
    intro s hf hr
    have hf' : s.popped.Final := ⟨fun u hu => hf.1 u (List.mem_of_mem_tail hu), hf.2⟩
    obtain ⟨t, hrun, hblock, hft⟩ := ih s.popped hf' fun u hu => hr u (List.mem_of_mem_tail hu)
    exact ⟨t, (core_run_next k s _ (step_of_final s hf hr)).trans hrun, hblock, hft⟩

end Sys2Proof.Machine
end
